-- ==== Sys2Proof/Word.lean ====
section
/-! DEFINITION. The two value widths of the block (spec/00_scope.md R8): an octet and the 16-bit checksum. -/

namespace Sys2Proof

/-- An octet: 8 bits, bit 0 the least significant (00_scope.md R8 and section 6). -/
abbrev Octet := BitVec 8

/-- A checksum value: 16 bits (00_scope.md R8). -/
abbrev Word := BitVec 16

end Sys2Proof
end

