-- ==== Sys2Proof/Config.lean ====
section
/-! DEFINITION. What is fixed: the protocol's constants (00_scope.md R5) and the parameters of one block
(00_scope.md section 4). A state carries its `Config`, so a statement about every state is a statement about every
configuration (log 16); no operation writes it (10_state.md R10). -/

namespace Sys2Proof

/-- `FLAG`, the frame boundary octet (00_scope.md R5). -/
def flagOctet : Octet := 0x7E#8

/-- `ESC`, the escape octet (00_scope.md R5). -/
def escOctet : Octet := 0x7D#8

/-- `INVERT`, the value XORed onto an escaped octet (00_scope.md R5). -/
def invertMask : Octet := 0x20#8

/-- `CRC_INIT`, the start value of every accumulation (00_scope.md R5). -/
def crcInit : Word := 0xFFFF#16

/-- `ESC_FLAG_POLICY`: what `FLAG` does while `escape_active` is true (00_scope.md R6). -/
inductive EscFlagPolicy where
  | cancelOnly
  | abortReset
  deriving DecidableEq, Repr

/-- `TX_LENGTH_CHECK`: what `SEND_FRAME` does with a payload longer than `MAX_FRAME_LENGTH`
(41_stuffer_encoder.md R88). -/
inductive TxLengthCheck where
  | reject
  | unchecked
  deriving DecidableEq, Repr

/-- The parameters of one block, fixed at construction (00_scope.md R4, R6, R7; 41_stuffer_encoder.md R88).
DESIGN CHOICE (log 16): one set of parameters for the encoder and all contexts of the block. -/
structure Config where
  /-- `MAX_FRAME_LENGTH`, the capacity of every receive buffer (00_scope.md R4). -/
  maxFrameLength : Nat
  /-- `N_CONTEXTS`, the number of Receiver Contexts (00_scope.md R7). -/
  nContexts : Nat
  escFlagPolicy : EscFlagPolicy
  txLengthCheck : TxLengthCheck
  deriving DecidableEq, Repr

/-- The bounds the spec requires: `MAX_FRAME_LENGTH >= 3` (00_scope.md R4) and `N_CONTEXTS >= 1` (00_scope.md R7). -/
abbrev Config.Legal (cfg : Config) : Prop := 3 ≤ cfg.maxFrameLength ∧ 1 ≤ cfg.nContexts

/-- The parameters of `State.reset`: the spec's defaults for the two policies and for `N_CONTEXTS` (00_scope.md
section 4, log 2). DESIGN CHOICE (log 1): `MAX_FRAME_LENGTH` has no default; 1024 is the source's one example. -/
def Config.default : Config :=
  { maxFrameLength := 1024, nContexts := 1, escFlagPolicy := .cancelOnly, txLengthCheck := .reject }

end Sys2Proof
end

