-- ==== Sys2Proof/Syntax.lean ====
section
/-! DEFINITION. The operations of the block, one constructor per row of spec/opcode_table.json, and the interfaces by
which the host selects an operation (30_encoding.md R50; 70_reset_and_hazards.md section 5). -/

namespace Sys2Proof

/-- One row of the opcode table with its operands. A Receiver Context is named by its number, an output sink by a
number of the host's (log 11). -/
inductive Instr where
  /-- `CRC_UPDATE crc, b` (40_crc.md R70). -/
  | crcUpdate (crc : Word) (b : Octet)
  /-- `STUFF.LIT b`: `b` is neither `0x7D` nor `0x7E` (41_stuffer_encoder.md R80). -/
  | stuffLit (b : Octet)
  /-- `STUFF.ESC7D`: the octet `0x7D` (41_stuffer_encoder.md R80). -/
  | stuffEsc7D
  /-- `STUFF.ESC7E`: the octet `0x7E` (41_stuffer_encoder.md R80). -/
  | stuffEsc7E
  /-- `SEND_FRAME payload` to an output sink (41_stuffer_encoder.md R83, R85). -/
  | sendFrame (sink : Nat) (payload : List Octet)
  /-- `RX_INIT ctx` (42_receiver.md R96). -/
  | rxInit (ctx : Nat)
  /-- `RX.FLAG`: `0x7E` while not escaping (42_receiver.md R98 to R100). -/
  | rxFlag (ctx : Nat)
  /-- `RX.FLAG_ESC`: `0x7E` while escaping (42_receiver.md R101, R102). -/
  | rxFlagEsc (ctx : Nat)
  /-- `RX.ESC`: `0x7D` while not escaping (42_receiver.md R103). -/
  | rxEsc (ctx : Nat)
  /-- `RX.DATA_ESC b`: any octet but `0x7E` while escaping (42_receiver.md R104). -/
  | rxDataEsc (ctx : Nat) (b : Octet)
  /-- `RX.DATA b`: neither `0x7D` nor `0x7E`, while not escaping (42_receiver.md R105). -/
  | rxData (ctx : Nat) (b : Octet)
  deriving DecidableEq, Repr

/-- The interface of the block a call comes in by; it selects the operation (30_encoding.md R50).
DESIGN CHOICE (log 10): the stuffer, which has no interface of its own in the source, has one here. -/
inductive Interface where
  | crcUpdate
  | stuff
  | txFrame (sink : Nat)
  | rxInit (ctx : Nat)
  | rxOctet (ctx : Nat)
  deriving DecidableEq, Repr

/-- What two calls may not use at the same time: a Receiver Context (20_memory.md R38) or an output sink
(41_stuffer_encoder.md R89). -/
inductive Resource where
  | context (ctx : Nat)
  | sink (sink : Nat)
  deriving DecidableEq, Repr

/-- The interface that selects an operation. -/
def Instr.port : Instr → Interface
  | .crcUpdate _ _ => .crcUpdate
  | .stuffLit _ => .stuff
  | .stuffEsc7D => .stuff
  | .stuffEsc7E => .stuff
  | .sendFrame sink _ => .txFrame sink
  | .rxInit ctx => .rxInit ctx
  | .rxFlag ctx => .rxOctet ctx
  | .rxFlagEsc ctx => .rxOctet ctx
  | .rxEsc ctx => .rxOctet ctx
  | .rxDataEsc ctx _ => .rxOctet ctx
  | .rxData ctx _ => .rxOctet ctx

/-- The row's condition on `escape_active` (opcode_table.json "condition"); false for a row that has none. -/
def Instr.escapeBefore : Instr → Bool
  | .crcUpdate _ _ => false
  | .stuffLit _ => false
  | .stuffEsc7D => false
  | .stuffEsc7E => false
  | .sendFrame _ _ => false
  | .rxInit _ => false
  | .rxFlag _ => false
  | .rxFlagEsc _ => true
  | .rxEsc _ => false
  | .rxDataEsc _ _ => true
  | .rxData _ _ => false

end Sys2Proof
end

