-- ==== Sys2Proof/WellFormed.lean ====
section
/-! DEFINITION. The operand values each row of the opcode table admits (30_encoding.md R53, R56). -/

namespace Sys2Proof

/-- A default row stands only for the octets that no row with a full mask takes (opcode_table.json "priority");
every other operand is free. -/
def Instr.wf : Instr → Bool
  | .crcUpdate _ _ => true
  | .stuffLit b => b != escOctet && b != flagOctet
  | .stuffEsc7D => true
  | .stuffEsc7E => true
  | .sendFrame _ _ => true
  | .rxInit _ => true
  | .rxFlag _ => true
  | .rxFlagEsc _ => true
  | .rxEsc _ => true
  | .rxDataEsc _ b => b != flagOctet
  | .rxData _ b => b != escOctet && b != flagOctet

end Sys2Proof
end

