-- ==== Sys2Proof/Decode.lean ====
section
/-! DEFINITION. From the octets of a call at an interface to an operation (30_encoding.md R50, R53, R56), and back. -/

namespace Sys2Proof

/-- `v[7:0]` (00_scope.md section 6). -/
def lowOctet (v : Word) : Octet := v.extractLsb' 0 8

/-- `v[15:8]` (00_scope.md section 6). -/
def highOctet (v : Word) : Octet := v.extractLsb' 8 8

/-- `{hi, lo}`: `hi` in bits 15:8 (00_scope.md section 6). -/
def joinOctets (hi lo : Octet) : Word := hi ++ lo

/-- The five cases of `RX_OCTET` (30_encoding.md R53). -/
inductive RxCase where
  | flag
  | flagEsc
  | esc
  | dataEsc
  | data
  deriving DecidableEq, Repr

/-- Which case an arriving octet selects: is it `FLAG`; else is `escape_active` true; else is it `ESC`
(30_encoding.md R53, 42_receiver.md R97). -/
def rxCase (escapeActive : Bool) (b : Octet) : RxCase :=
  if b = flagOctet then
    if escapeActive then .flagEsc else .flag
  else if escapeActive then .dataEsc
  else if b = escOctet then .esc
  else .data

/-- The three octet classes of the stuffer (30_encoding.md R56). -/
inductive StuffCase where
  | lit
  | esc7D
  | esc7E
  deriving DecidableEq, Repr

/-- Which class an octet is in (30_encoding.md R56). -/
def stuffCase (b : Octet) : StuffCase :=
  if b = escOctet then .esc7D else if b = flagOctet then .esc7E else .lit

/-- Why a call is no operation. Only the number of octets can be wrong: no octet value is illegal
(30_encoding.md R53). -/
inductive DecodeError where
  /-- `CRC_UPDATE` takes three operand octets. -/
  | crcOperandOctets
  /-- `STUFF` takes one octet. -/
  | stuffOperandOctets
  /-- `RX_INIT` takes no octet. -/
  | rxInitOperandOctets
  /-- `RX_OCTET` takes one octet. -/
  | rxOctetOperandOctets
  deriving DecidableEq, Repr

/-- What decoding answers. -/
inductive Decoded where
  | instr (i : Instr)
  | rejected (why : DecodeError)
  deriving DecidableEq, Repr

/-- The row of an octet at the stuffer (30_encoding.md R56). -/
def decodeStuff (b : Octet) : Instr :=
  match stuffCase b with
  | .lit => .stuffLit b
  | .esc7D => .stuffEsc7D
  | .esc7E => .stuffEsc7E

/-- The row of an octet at a receiver (30_encoding.md R53). -/
def decodeRx (ctx : Nat) (escapeActive : Bool) (b : Octet) : Instr :=
  match rxCase escapeActive b with
  | .flag => .rxFlag ctx
  | .flagEsc => .rxFlagEsc ctx
  | .esc => .rxEsc ctx
  | .dataEsc => .rxDataEsc ctx b
  | .data => .rxData ctx b

/-- The operation of a call: `port` is the interface it came in by, `escapeActive` the flag of the context of an
`rx_octet` call (ignored elsewhere), `octets` its operands.
DESIGN CHOICE (log 9): `CRC_UPDATE`'s 24 operand bits come as three octets in the table's bit order, bits 7:0 (`b`)
first, then `crc[7:0]`, then `crc[15:8]`. -/
def decode (port : Interface) (escapeActive : Bool) (octets : List Octet) : Decoded :=
  match port with
  | .crcUpdate =>
    match octets with
    | [b, lo, hi] => .instr (.crcUpdate (joinOctets hi lo) b)
    | _ => .rejected .crcOperandOctets
  | .stuff =>
    match octets with
    | [b] => .instr (decodeStuff b)
    | _ => .rejected .stuffOperandOctets
  | .txFrame sink => .instr (.sendFrame sink octets)
  | .rxInit ctx =>
    match octets with
    | [] => .instr (.rxInit ctx)
    | _ => .rejected .rxInitOperandOctets
  | .rxOctet ctx =>
    match octets with
    | [b] => .instr (decodeRx ctx escapeActive b)
    | _ => .rejected .rxOctetOperandOctets

/-- The operand octets of an operation at its interface (`Instr.port`); the inverse of `decode`. -/
def encode : Instr → List Octet
  | .crcUpdate crc b => [b, lowOctet crc, highOctet crc]
  | .stuffLit b => [b]
  | .stuffEsc7D => [escOctet]
  | .stuffEsc7E => [flagOctet]
  | .sendFrame _ payload => payload
  | .rxInit _ => []
  | .rxFlag _ => [flagOctet]
  | .rxFlagEsc _ => [flagOctet]
  | .rxEsc _ => [escOctet]
  | .rxDataEsc _ b => [b]
  | .rxData _ b => [b]

/-- The call that stands for a word of `nbits` bits of the opcode table. DESIGN CHOICE (log 9): the table's words do
not name their interface, so an 8-bit word is an octet at `rx_octet` of context 0, a 24-bit word the operands of
`crc_update`, and a word of no bits `rx_init` of context 0. -/
def tableCall (nbits w : Nat) : Option (Interface × List Octet) :=
  if nbits = 0 then some (.rxInit 0, [])
  else if nbits = 8 then some (.rxOctet 0, [BitVec.ofNat 8 w])
  else if nbits = 24 then
    some (.crcUpdate, [BitVec.ofNat 8 w, BitVec.ofNat 8 (w / 256), BitVec.ofNat 8 (w / 65536)])
  else none

/-- The operation a table word decodes to, for a context that is not escaping (`escape_active` false, as after
reset). -/
def decodeTableWord (nbits w : Nat) : Option Instr :=
  match tableCall nbits w with
  | some (port, octets) =>
    match decode port false octets with
    | .instr i => some i
    | .rejected _ => none
  | none => none

end Sys2Proof
end

