-- ==== Sys2Proof/Machine/State.lean ====
section
/-! DEFINITION. The machine's state as plain data: the Receiver Contexts (10_state.md R10), the configuration they were
built with, the calls the host has presented, and what the operations performed so far have put out; the reasons a step
can stop; and the state after reset. -/

namespace Sys2Proof.Machine

/-- `rx_status`, the diagnostic output of one `RX_OCTET` (60_exceptions.md R124). -/
inductive RxStatus where
  | none
  | frameOk
  | checksumMismatch
  | runt
  | frameTooLarge
  | escapedBoundary
  deriving DecidableEq, Repr

/-- `tx_result`, the answer of one `SEND_FRAME` (41_stuffer_encoder.md R88, 70_reset_and_hazards.md section 5). -/
inductive TxResult where
  | ok
  | payloadTooLarge (n : Nat)
  deriving DecidableEq, Repr

/-- One operation performed, with everything it put out (70_reset_and_hazards.md section 5). One entry per operation, so
no order between the outputs of one operation is invented (log 8). -/
inductive Event where
  /-- `CRC_UPDATE` returned `result`. -/
  | crc (result : Word)
  /-- `STUFF` returned `octets`. -/
  | stuffed (octets : List Octet)
  /-- `SEND_FRAME` passed `octets`, in order, to `sink` and answered `result`. -/
  | tx (sink : Nat) (octets : List Octet) (result : TxResult)
  /-- `RX_INIT` put context `ctx` in its reset state; it has no output. -/
  | rxInit (ctx : Nat)
  /-- `RX_OCTET` of context `ctx`: its `frame_out`, if any, and its `rx_status`. -/
  | rx (ctx : Nat) (frameOut : Option (List Octet)) (status : RxStatus)
  deriving DecidableEq, Repr

/-- A call the host presents: the interface used and the operand octets. `during` lists the earlier calls that had not
ended when this one was presented, counted back from the newest (0 is the call just before); it is empty when the host
serialises its calls, as it must (20_memory.md R38). A consumer's call from inside a `frame_out` lists the `RX_OCTET`
it is called by (60_exceptions.md R131). A call carries no stream's name (log 19). -/
structure Call where
  port : Interface
  octets : List Octet
  during : List Nat
  deriving DecidableEq, Repr

/-- The receive buffer's contents: the octets stored, as (index, octet) pairs in rising order of index. An index that is
not listed holds no value (92_eei_decisions.md D9, log 4). -/
abbrev Memory := List Host.Cell

/-- The Receiver Context, the only mutable entity of the block, with exactly these four fields (10_state.md R10). -/
structure Context where
  /-- `escape_active` (10_state.md R11). -/
  escapeActive : Bool
  /-- `position`, fill count and write cursor (10_state.md R12). -/
  position : Nat
  /-- `checksum`, two octets behind the cursor (10_state.md R13). -/
  checksum : Word
  /-- `buffer`, `MAX_FRAME_LENGTH` octets (10_state.md R16). -/
  buffer : Memory
  deriving DecidableEq, Repr

/-- The machine. -/
structure State where
  /-- The construction-time parameters, written by no operation (10_state.md R10). -/
  cfg : Config
  /-- The Receiver Contexts by number; `none` is a context that `RX_INIT` has not constructed (10_state.md R22). -/
  contexts : List (Option Context)
  /-- The model's own field (log 7): calls presented and not yet performed, oldest first. -/
  pending : List Call
  /-- The model's own field (log 8): the operations performed with their outputs, oldest first. -/
  events : List Event
  deriving DecidableEq, Repr

/-- Why the machine stops with a fault. Neither happens in a state that meets the invariant of Safety.lean. -/
inductive Fault where
  /-- An access to a buffer index that does not exist, outside `0 .. MAX_FRAME_LENGTH - 1` (20_memory.md R30, R34).
  Raised by `memRead` and `memWrite`. Safe. -/
  | outsideBuffer (index : Nat)
  /-- A read of an index that holds no octet stored since `position` was last 0, for which no read is defined
  (20_memory.md R33, R37). Raised by `memRead`. Safe. -/
  | unwrittenOctet (index : Nat)
  deriving DecidableEq, Repr

/-- Why the machine gives a call no meaning. -/
inductive Refusal where
  /-- Raised by an arm of `exec` for an instruction that has no meaning yet; no arm raises it now. Safe. -/
  | notModelled (mnemonic : String)
  /-- `RX_OCTET` on a context that was never initialised, or that the block does not have (70_reset_and_hazards.md R141,
  92_eei_decisions.md D15). Raised by the receiver's meanings. Safe. -/
  | contextNotConstructed (ctx : Nat)
  /-- `RX_INIT` of a context number the block does not have (00_scope.md R7, log 14). Raised by `RX_INIT`. Safe. -/
  | noSuchContext (ctx : Nat)
  /-- `RX_INIT` in a block whose parameters break the bounds the spec requires (00_scope.md R4, 92_eei_decisions.md D6).
  Raised by `RX_INIT`. Safe. -/
  | illegalConfiguration
  /-- A row executed where it is not the one selected: the octet or `escape_active` selects another
  (30_encoding.md R53 and section 7, log 12). Raised by the `RX.` and `STUFF.` meanings; no decoded operation meets it.
  Safe. -/
  | caseNotSelected
  /-- A call on a context or sink that an earlier call, not yet ended, is using: unserialised use or re-entry
  (20_memory.md R38, 60_exceptions.md R131, 41_stuffer_encoder.md R89). Raised by `fetch`. Safe. -/
  | unserialised (what : Resource)
  /-- A call whose number of operand octets fits no operation of its interface (log 18). Raised by `fetch`. Safe. -/
  | malformedCall (why : DecodeError)
  deriving DecidableEq, Repr

/-- A context right after `RX_INIT` (10_state.md R22): nothing of the buffer is known. -/
def Context.fresh : Context :=
  { escapeActive := false, position := 0, checksum := crcInit, buffer := [] }

/-- The machine after reset. The block's one kind of reset is the construction of a context (70_reset_and_hazards.md
R140), so every context stands constructed (DESIGN CHOICE, log 3), nothing is presented and nothing has been put out. -/
def State.reset : State :=
  { cfg := Config.default
    contexts := List.replicate Config.default.nContexts (some Context.fresh)
    pending := []
    events := [] }

end Sys2Proof.Machine
end

