-- ==== Sys2Proof/Machine/Flags.lean ====
section
/-! DEFINITION. The block's one flag, `escape_active` (10_state.md R11), and the re-initialisation of a context's
registers, which is what the spec has in the place of taking an exception (60_exceptions.md R129). -/

namespace Sys2Proof.Machine

/-- `ctx.escape_active <- true` (42_receiver.md R103). -/
def Context.setEscape (c : Context) : Context := { c with escapeActive := true }

/-- `ctx.escape_active <- false` (42_receiver.md R101, R102, R104). -/
def Context.clearEscape (c : Context) : Context := { c with escapeActive := false }

/-- `position <- 0`, `checksum <- 0xFFFF`: the reset of the overflow guard (42_receiver.md R106), which leaves
`escape_active` (false there) as it is. -/
def Context.restart (c : Context) : Context := { c with position := 0, checksum := crcInit }

/-- The reset state of a context's registers, buffer untouched (10_state.md R22, 70_reset_and_hazards.md R140). -/
def Context.reinit (c : Context) : Context := c.restart.clearEscape

/-- What `RX.FLAG_ESC` leaves under each policy (42_receiver.md R101, R102). -/
def Context.escapedBoundary (policy : EscFlagPolicy) (c : Context) : Context :=
  match policy with
  | .cancelOnly => c.clearEscape
  | .abortReset => c.clearEscape.restart

end Sys2Proof.Machine
end

