-- ==== Sys2Proof/Machine/Operands.lean ====
section
/-! DEFINITION. The values the operations compute from their operands: the checksum step (40_crc.md), the stuffing of an
octet and its undoing, and the assembly of the FCS (30_encoding.md section 4). -/

namespace Sys2Proof.Machine

/-- `crc_update(crc, b)` (40_crc.md R70, with R73's widths). -/
def crcStep (crc : Word) (b : Octet) : Word :=
  let x1 : Octet := b ^^^ lowOctet crc
  let x2 : Octet := x1 ^^^ (x1 <<< 4)
  let t1 : Word := (x2.zeroExtend 16 <<< 8) ||| (highOctet crc).zeroExtend 16
  let t2 : Word := (x2 >>> 4).zeroExtend 16
  let t3 : Word := x2.zeroExtend 16 <<< 3
  t1 ^^^ t2 ^^^ t3

/-- `crc16(s)`: the left fold of `crc_update` from `CRC_INIT` (40_crc.md R71). -/
def crc16 (s : List Octet) : Word := s.foldl crcStep crcInit

/-- `stuff(b)` (41_stuffer_encoder.md R80). -/
def stuff (b : Octet) : List Octet :=
  match stuffCase b with
  | .lit => [b]
  | .esc7D => [escOctet, b ^^^ invertMask]
  | .esc7E => [escOctet, b ^^^ invertMask]

/-- The value an escaped octet stands for (30_encoding.md R54). -/
def unescape (b : Octet) : Octet := b ^^^ invertMask

/-- `fcs_rx`, from the two last stored octets, the earlier one low (20_memory.md R31, 30_encoding.md R55). -/
def fcsOf (lo hi : Octet) : Word := joinOctets hi lo

/-- Steps 2 to 4 of `SEND_FRAME` with the running checksum `fcs` (41_stuffer_encoder.md R85). -/
def sendBody (fcs : Word) : List Octet → List Octet
  | [] => stuff (lowOctet fcs) ++ (stuff (highOctet fcs) ++ [flagOctet])
  | b :: rest => stuff b ++ sendBody (crcStep fcs b) rest

/-- The octets one `SEND_FRAME` passes to its sink, in order (41_stuffer_encoder.md R85). -/
def frameOctets (payload : List Octet) : List Octet := flagOctet :: sendBody crcInit payload

end Sys2Proof.Machine
end

