-- ==== Sys2Proof/Machine/Ops.lean ====
section
/-! DEFINITION. The named operations over the receive buffer, a context and the state, and the receiver's shared
operations: the test at a boundary, the store with its fold and guard, and the end of an `RX_OCTET`, which reports the
condition it met (60_exceptions.md R128, R129). -/

namespace Sys2Proof.Machine

/-- The octet stored at an index, if any. -/
def Memory.read : Memory → Nat → Option Octet
  | [], _ => none
  | (a, v) :: rest, i => if a = i then some v else Memory.read rest i

/-- Store an octet at an index, keeping the list in rising order of index. -/
def Memory.write : Memory → Nat → Octet → Memory
  | [], i, v => [(i, v)]
  | (a, w) :: rest, i, v =>
    if i < a then (i, v) :: (a, w) :: rest
    else if i = a then (i, v) :: rest
    else (a, w) :: Memory.write rest i v

/-- The canonical form: indices strictly rising. An unlisted index reads as no value, so no entry can repeat what an
unlisted one reads as (log 4). -/
abbrev Memory.wf (m : Memory) : Prop := m.Pairwise (fun x y => x.1 < y.1)

/-- `MemRead(i, 1)` (20_memory.md R33): defined only below `position`. -/
def memRead (cfg : Config) (c : Context) (i : Nat) : Except Fault Octet :=
  if cfg.maxFrameLength ≤ i then .error (.outsideBuffer i)
  else if c.position ≤ i then .error (.unwrittenOctet i)
  else
    match Memory.read c.buffer i with
    | some v => .ok v
    | none => .error (.unwrittenOctet i)

/-- `MemWrite(i, 1, v)` (20_memory.md R34). -/
def memWrite (cfg : Config) (c : Context) (i : Nat) (v : Octet) : Except Fault Context :=
  if cfg.maxFrameLength ≤ i then .error (.outsideBuffer i)
  else .ok { c with buffer := Memory.write c.buffer i v }

/-- `[MemRead(0,1), ..., MemRead(n-1,1)]`, `buffer[0 .. n)` (20_memory.md R42). -/
def memReadPrefix (cfg : Config) (c : Context) : Nat → Except Fault (List Octet)
  | 0 => .ok []
  | n + 1 =>
    match memReadPrefix cfg c n with
    | .error f => .error f
    | .ok xs =>
      match memRead cfg c n with
      | .error f => .error f
      | .ok v => .ok (xs ++ [v])

/-- What `RX.FLAG` delivers and reports (42_receiver.md R98, R99), before the reset of R100. -/
def boundary (cfg : Config) (c : Context) : Except Fault (Option (List Octet) × RxStatus) :=
  if 2 ≤ c.position then
    match memRead cfg c (c.position - 2), memRead cfg c (c.position - 1) with
    | .ok lo, .ok hi =>
      if c.checksum = fcsOf lo hi then
        match memReadPrefix cfg c (c.position - 2) with
        | .ok payload => .ok (some payload, .frameOk)
        | .error f => .error f
      else .ok (none, .checksumMismatch)
    | .error f, _ => .error f
    | .ok _, .error f => .error f
  else if c.position = 1 then .ok (none, .runt)
  else .ok (none, .none)

/-- The fold of a data case: `buffer[position - 2]` enters the checksum (42_receiver.md R105). -/
def foldChecksum (cfg : Config) (c : Context) : Except Fault Context :=
  if 2 ≤ c.position then
    match memRead cfg c (c.position - 2) with
    | .ok x => .ok { c with checksum := crcStep c.checksum x }
    | .error f => .error f
  else .ok c

/-- The increment of a data case and the overflow guard after it (42_receiver.md R105, R106). -/
def advance (cfg : Config) (c : Context) : Context × RxStatus :=
  let c' : Context := { c with position := c.position + 1 }
  if c'.position = cfg.maxFrameLength then (c'.restart, .frameTooLarge) else (c', .none)

/-- Store, fold, increment, guard: the common part of the two data cases (42_receiver.md R105, R106). -/
def storeData (cfg : Config) (c : Context) (v : Octet) : Except Fault (Context × RxStatus) :=
  match memWrite cfg c c.position v with
  | .error f => .error f
  | .ok c1 =>
    match foldChecksum cfg c1 with
    | .error f => .error f
    | .ok c2 => .ok (advance cfg c2)

/-- The context with a number, if the block has it and it is constructed. -/
def State.context? (s : State) (ctx : Nat) : Option Context :=
  match s.contexts[ctx]? with
  | some (some c) => some c
  | some none => none
  | none => none

/-- Replace one context; every other is left alone (20_memory.md R41). -/
def State.setContext (s : State) (ctx : Nat) (c : Context) : State :=
  { s with contexts := s.contexts.set ctx (some c) }

/-- Add the outputs of the operation being performed. -/
def State.log (s : State) (e : Event) : State := { s with events := s.events ++ [e] }

/-- The end of an `RX_OCTET` on context `ctx`: the registers it leaves, its `frame_out` and its `rx_status`
(42_receiver.md R95, 60_exceptions.md R124). -/
def rxEnd (ctx : Nat) (c : Context) (frameOut : Option (List Octet)) (status : RxStatus) (s : State) :
    Host.Outcome State Fault Refusal :=
  .next ((s.setContext ctx c).log (.rx ctx frameOut status))

/-- The start of an `RX_OCTET`: the context must be constructed (70_reset_and_hazards.md R141), and the octet and
`escape_active` must select the row being executed (42_receiver.md R97, log 12). -/
def rxBegin (ctx : Nat) (row : RxCase) (b : Octet) (s : State)
    (body : Context → Host.Outcome State Fault Refusal) : Host.Outcome State Fault Refusal :=
  match s.context? ctx with
  | none => .refused (.contextNotConstructed ctx)
  | some c => if rxCase c.escapeActive b = row then body c else .refused .caseNotSelected

/-- The whole of a data case once the octet `v` to store is known and the flag is settled (42_receiver.md R104 to
R106). -/
def rxStore (ctx : Nat) (c : Context) (v : Octet) (s : State) : Host.Outcome State Fault Refusal :=
  match storeData s.cfg c v with
  | .error f => .fault f
  | .ok (c', status) => rxEnd ctx c' none status s

end Sys2Proof.Machine
end

