-- ==== Sys2Proof/Machine/Crc.lean ====
section
/-! DEFINITION. The Checksum Engine's operation (spec/40_crc.md). -/

namespace Sys2Proof.Machine

/-- `CRC_UPDATE crc, b` (40_crc.md R70): the result is returned; no state. -/
def execCrcUpdate (crc : Word) (b : Octet) (s : State) : Host.Outcome State Fault Refusal :=
  .next (s.log (.crc (crcStep crc b)))

end Sys2Proof.Machine
end

