-- ==== Sys2Proof/Machine/Encoder.lean ====
section
/-! DEFINITION. The Byte Stuffer's and the Frame Encoder's operations (spec/41_stuffer_encoder.md). -/

namespace Sys2Proof.Machine

/-- Return `stuff(b)`, for the row that `b` selects (41_stuffer_encoder.md R80; log 10, log 12). -/
def stuffEnd (row : StuffCase) (b : Octet) (s : State) : Host.Outcome State Fault Refusal :=
  if stuffCase b = row then .next (s.log (.stuffed (stuff b))) else .refused .caseNotSelected

/-- `STUFF.LIT b` (41_stuffer_encoder.md R80). -/
def execStuffLit (b : Octet) (s : State) : Host.Outcome State Fault Refusal := stuffEnd .lit b s

/-- `STUFF.ESC7D` (41_stuffer_encoder.md R80). -/
def execStuffEsc7D (s : State) : Host.Outcome State Fault Refusal := stuffEnd .esc7D escOctet s

/-- `STUFF.ESC7E` (41_stuffer_encoder.md R80). -/
def execStuffEsc7E (s : State) : Host.Outcome State Fault Refusal := stuffEnd .esc7E flagOctet s

/-- `SEND_FRAME payload` to a sink (41_stuffer_encoder.md R85); under `REJECT` a payload longer than
`MAX_FRAME_LENGTH` emits nothing and the call answers `PayloadTooLarge(n)` (41_stuffer_encoder.md R88). -/
def execSendFrame (sink : Nat) (payload : List Octet) (s : State) : Host.Outcome State Fault Refusal :=
  if s.cfg.txLengthCheck = .reject ∧ s.cfg.maxFrameLength < payload.length then
    .next (s.log (.tx sink [] (.payloadTooLarge payload.length)))
  else .next (s.log (.tx sink (frameOctets payload) .ok))

end Sys2Proof.Machine
end

