-- ==== Sys2Proof/Machine/Receiver.lean ====
section
/-! DEFINITION. The Frame Receiver's operations (spec/42_receiver.md). -/

namespace Sys2Proof.Machine

/-- `RX_INIT ctx` (42_receiver.md R96): constructs the context, or re-initialises a live one leaving its buffer
untouched. A context that was not constructed has no octet stored (10_state.md R22). A block with parameters outside the
required bounds constructs nothing (00_scope.md R4). -/
def execRxInit (ctx : Nat) (s : State) : Host.Outcome State Fault Refusal :=
  if s.cfg.Legal then
    match s.contexts[ctx]? with
    | none => .refused (.noSuchContext ctx)
    | some none => .next ((s.setContext ctx Context.fresh).log (.rxInit ctx))
    | some (some c) => .next ((s.setContext ctx c.reinit).log (.rxInit ctx))
  else .refused .illegalConfiguration

/-- `RX.FLAG` (42_receiver.md R98, R99), ending always with the reset of R100. -/
def execRxFlag (ctx : Nat) (s : State) : Host.Outcome State Fault Refusal :=
  rxBegin ctx .flag flagOctet s fun c =>
    match boundary s.cfg c with
    | .error f => .fault f
    | .ok (frameOut, status) => rxEnd ctx c.reinit frameOut status s

/-- `RX.FLAG_ESC` (42_receiver.md R101, R102; 60_exceptions.md R125). -/
def execRxFlagEsc (ctx : Nat) (s : State) : Host.Outcome State Fault Refusal :=
  rxBegin ctx .flagEsc flagOctet s fun c =>
    rxEnd ctx (c.escapedBoundary s.cfg.escFlagPolicy) none .escapedBoundary s

/-- `RX.ESC` (42_receiver.md R103). -/
def execRxEsc (ctx : Nat) (s : State) : Host.Outcome State Fault Refusal :=
  rxBegin ctx .esc escOctet s fun c => rxEnd ctx c.setEscape none .none s

/-- `RX.DATA_ESC b` (42_receiver.md R104). -/
def execRxDataEsc (ctx : Nat) (b : Octet) (s : State) : Host.Outcome State Fault Refusal :=
  rxBegin ctx .dataEsc b s fun c => rxStore ctx c.clearEscape (unescape b) s

/-- `RX.DATA b` (42_receiver.md R105). -/
def execRxData (ctx : Nat) (b : Octet) (s : State) : Host.Outcome State Fault Refusal :=
  rxBegin ctx .data b s fun c => rxStore ctx c b s

end Sys2Proof.Machine
end

