-- ==== Sys2Proof/Machine/Dispatch.lean ====
section
/-! DEFINITION. Which meaning each row of the opcode table has. -/

namespace Sys2Proof.Machine

/-- The meaning of each operation. -/
def exec (i : Instr) (s : State) : Host.Outcome State Fault Refusal :=
  match i with
  | .crcUpdate crc b => Sys2Proof.Machine.execCrcUpdate crc b s
  | .stuffLit b => Sys2Proof.Machine.execStuffLit b s
  | .stuffEsc7D => Sys2Proof.Machine.execStuffEsc7D s
  | .stuffEsc7E => Sys2Proof.Machine.execStuffEsc7E s
  | .sendFrame sink payload => Sys2Proof.Machine.execSendFrame sink payload s
  | .rxInit ctx => Sys2Proof.Machine.execRxInit ctx s
  | .rxFlag ctx => Sys2Proof.Machine.execRxFlag ctx s
  | .rxFlagEsc ctx => Sys2Proof.Machine.execRxFlagEsc ctx s
  | .rxEsc ctx => Sys2Proof.Machine.execRxEsc ctx s
  | .rxDataEsc ctx b => Sys2Proof.Machine.execRxDataEsc ctx b s
  | .rxData ctx b => Sys2Proof.Machine.execRxData ctx b s

end Sys2Proof.Machine
end

