-- ==== Sys2Proof/Machine/Fetch.lean ====
section
/-! DEFINITION. How the next operation comes to run. The block fetches nothing (10_state.md R14): the host presents
calls, and they are performed one at a time in the order presented (10_state.md R15, 20_memory.md R38). -/

namespace Sys2Proof.Machine

/-- The resource a call at an interface uses alone (20_memory.md R38, 41_stuffer_encoder.md R89). -/
def resourceOfPort : Interface → Option Resource
  | .crcUpdate => none
  | .stuff => none
  | .txFrame sink => some (.sink sink)
  | .rxInit ctx => some (.context ctx)
  | .rxOctet ctx => some (.context ctx)

/-- The resource an operation performed was using. -/
def resourceOfEvent : Event → Option Resource
  | .crc _ => none
  | .stuffed _ => none
  | .tx sink _ _ => some (.sink sink)
  | .rxInit ctx => some (.context ctx)
  | .rx ctx _ _ => some (.context ctx)

/-- The earlier calls that had not ended when a call was presented: `during` counts back from the newest. -/
def unfinished (s : State) (call : Call) : List Event := call.during.filterMap (fun k => s.events.reverse[k]?)

/-- The resource, if any, that a call shares with an earlier call not yet ended (log 13). -/
def conflict (s : State) (call : Call) : Option Resource :=
  match resourceOfPort call.port with
  | none => none
  | some r => if (unfinished s call).any (fun e => resourceOfEvent e == some r) then some r else none

/-- `escape_active` as the decoding of a call sees it: the flag of the context an `rx_octet` call names; false where
there is none to see (30_encoding.md R53). -/
def escapeSeen (s : State) : Interface → Bool
  | .crcUpdate => false
  | .stuff => false
  | .txFrame _ => false
  | .rxInit _ => false
  | .rxOctet ctx =>
    match s.context? ctx with
    | some c => c.escapeActive
    | none => false

/-- What stands next. -/
inductive Fetched where
  /-- No call is presented. -/
  | idle
  /-- The next call is given no meaning. -/
  | stop (why : Refusal)
  /-- The next call is this operation; `s` is the state with the call taken. -/
  | run (i : Instr) (s : State)
  deriving DecidableEq, Repr

/-- Take the oldest call presented and decode it; refuse it if it is unserialised (20_memory.md R38, 60_exceptions.md
R131, 41_stuffer_encoder.md R89) or malformed (log 18). DESIGN CHOICE (log 19, unsafe): a call does not say which stream
its octet is of, so serialised octets of two streams at one context, which have no defined result
(70_reset_and_hazards.md R143), are performed in the order presented, as one stream. -/
def fetch (s : State) : Fetched :=
  match s.pending with
  | [] => .idle
  | call :: rest =>
    match conflict s call with
    | some r => .stop (.unserialised r)
    | none =>
      match decode call.port (escapeSeen s call.port) call.octets with
      | .rejected why => .stop (.malformedCall why)
      | .instr i => .run i { s with pending := rest }

/-- Present a call as the next to be performed. -/
def present (s : State) (call : Call) : State := { s with pending := call :: s.pending }

/-- Select the case a table word stands for: the word of an octet is read with `escape_active` false (log 9). -/
def selectCase (s : State) : Interface → State
  | .crcUpdate => s
  | .stuff => s
  | .txFrame _ => s
  | .rxInit _ => s
  | .rxOctet ctx =>
    match s.context? ctx with
    | some c => s.setContext ctx c.clearEscape
    | none => s

/-- Present the operation `decodeTableWord nbits w` as the next call (log 9). -/
def presentTableWord (s : State) (nbits w : Nat) : State :=
  match tableCall nbits w with
  | some (port, octets) => present (selectCase s port) { port := port, octets := octets, during := [] }
  | none => s

/-- The calls by which a host feeds a stream of octets to one context, one `RX_OCTET` an octet, serialised. -/
def octetCalls (ctx : Nat) (octets : List Octet) : List Call :=
  octets.map (fun b => { port := .rxOctet ctx, octets := [b], during := [] })

end Sys2Proof.Machine
end

