-- ==== Sys2Proof/Machine/Step.lean ====
section
/-! DEFINITION. One step of the machine: the next call presented is performed. -/

namespace Sys2Proof.Machine

/-- Perform the oldest call presented. With none presented the block does nothing and holds its state
(60_exceptions.md section 12, log 7). -/
def step (s : State) : Host.Outcome State Fault Refusal :=
  match fetch s with
  | .idle => .next s
  | .stop why => .refused why
  | .run i s' => exec i s'

/-- `s` with the operation of a table word presented as its next call, so that the very next step performs it
(log 9). -/
def State.withFetchWord (s : State) (nbits w : Nat) : State := presentTableWord s nbits w

end Sys2Proof.Machine
end

