-- ==== Sys2Proof/Safety.lean ====
section
/-! DEFINITION. What counts as a sound state, and the terms the claims are stated in: the octets a context holds, the
invariants of spec/10_state.md section 5, and the spec's own alternative forms of the checksum step and of stuffing,
written apart from the model's. -/

namespace Sys2Proof.Machine

/-- Context `c` holds exactly the octets `xs`: `buffer[0 .. position) = xs` (10_state.md R17). -/
def Context.Holds (c : Context) (xs : List Octet) : Prop :=
  c.position = xs.length ∧ ∀ k, k < xs.length → Memory.read c.buffer k = xs[k]?

/-- The registers of a context are in their reset state (10_state.md R22). -/
def Context.IsReset (c : Context) : Prop :=
  c.escapeActive = false ∧ c.position = 0 ∧ c.checksum = 0xFFFF#16

/-- The buffer is in canonical form and every octet stored is inside it (20_memory.md R30, R34). -/
def Context.BufferSound (cfg : Config) (c : Context) : Prop :=
  Memory.wf c.buffer ∧ ∀ cell ∈ c.buffer, cell.1 < cfg.maxFrameLength

/-- The trailing checksum: `checksum = crc16(buffer[0 .. max(position - 2, 0)))`, over octets all of which are stored
(10_state.md R17, R18). -/
def Context.ChecksumTrails (c : Context) : Prop :=
  ∃ xs, c.Holds xs ∧ c.checksum = crc16 (xs.take (xs.length - 2))

/-- The invariant of a Receiver Context between operations (10_state.md R12, R17, R18; 20_memory.md R34). -/
structure Context.Inv (cfg : Config) (c : Context) : Prop where
  positionInside : c.position < cfg.maxFrameLength
  bufferSound : c.BufferSound cfg
  checksumTrails : c.ChecksumTrails

/-- The invariant of the machine: legal parameters, as many contexts as they say, each one sound. -/
structure State.Inv (s : State) : Prop where
  legal : s.cfg.Legal
  contextCount : s.contexts.length = s.cfg.nContexts
  contextsSound : ∀ ctx c, s.context? ctx = some c → c.Inv s.cfg

/-- `crc_update` in natural numbers, as the source writes it (40_crc.md R70). -/
def crcUpdateNat (crc byte : Nat) : Nat :=
  let x1 := byte ^^^ (crc % 256)
  let x2 := x1 ^^^ (x1 * 16 % 256)
  ((x2 * 256 ||| crc / 256) ^^^ (x2 / 16)) ^^^ (x2 * 8 % 65536)

/-- One round of the bit-serial procedure (40_crc.md R75). -/
def crcBit (c : Word) : Word := if c.getLsbD 0 then (c >>> 1) ^^^ 0x8408#16 else c >>> 1

/-- The bit-serial procedure: eight rounds on `crc XOR zext_16(b)` (40_crc.md R75). -/
def crcBitSerial (crc : Word) (b : Octet) : Word :=
  crcBit (crcBit (crcBit (crcBit (crcBit (crcBit (crcBit (crcBit (crc ^^^ b.zeroExtend 16))))))))

/-- The octets on the wire for one octet inside a frame (30_encoding.md R51, the source's `stuffed(b)`). -/
def wireForm (b : Octet) : List Octet :=
  if b = 0x7D#8 ∨ b = 0x7E#8 then [0x7D#8, b ^^^ 0x20#8] else [b]

/-- `encode(payload)`: the frame in the wire format (30_encoding.md R51). -/
def wireFrame (payload : List Octet) : List Octet :=
  [0x7E#8] ++ payload.flatMap wireForm ++ wireForm ((crc16 payload).extractLsb' 0 8)
    ++ wireForm ((crc16 payload).extractLsb' 8 8) ++ [0x7E#8]

/-- De-stuffing: an octet `0x7D` is dropped and the octet after it is XORed with `0x20` (41_stuffer_encoder.md R82). -/
def destuff : List Octet → List Octet
  | [] => []
  | [b] => if b = 0x7D#8 then [] else [b]
  | b :: x :: rest => if b = 0x7D#8 then (x ^^^ 0x20#8) :: destuff rest else b :: destuff (x :: rest)

/-- How many octets of a list are `0x7D` or `0x7E` (30_encoding.md R52's `e`). -/
def reservedCount (xs : List Octet) : Nat := xs.countP (fun b => b == 0x7D#8 || b == 0x7E#8)

/-- The `frame_out` of an operation performed: the context and the payload. -/
def frameOutOf : Event → Option (Nat × List Octet)
  | .crc _ => none
  | .stuffed _ => none
  | .tx _ _ _ => none
  | .rxInit _ => none
  | .rx ctx (some payload) _ => some (ctx, payload)
  | .rx _ none _ => none

/-- The row a receiver's octet selects, written as the tests of 42_receiver.md R97 in their order. -/
def rxRow (ctx : Nat) (escapeActive : Bool) (b : Octet) : Instr :=
  if b = 0x7E#8 ∧ escapeActive = true then .rxFlagEsc ctx
  else if b = 0x7E#8 then .rxFlag ctx
  else if escapeActive = true then .rxDataEsc ctx b
  else if b = 0x7D#8 then .rxEsc ctx
  else .rxData ctx b

/-- The `rx_status` of an octet `b` at a context that holds `xs`, by the table of 60_exceptions.md R124. -/
def rxStatusTable (cfg : Config) (c : Context) (xs : List Octet) (b : Octet) : RxStatus :=
  if b = 0x7E#8 then
    if c.escapeActive = true then .escapedBoundary
    else if c.position = 0 then .none
    else if c.position = 1 then .runt
    else if c.checksum = (xs.getD (xs.length - 2) 0#8).zeroExtend 16 |||
        ((xs.getD (xs.length - 1) 0#8).zeroExtend 16 <<< 8) then .frameOk
    else .checksumMismatch
  else if b = 0x7D#8 ∧ c.escapeActive = false then .none
  else if c.position + 1 = cfg.maxFrameLength then .frameTooLarge
  else .none

/-- In state `s`, `SEND_FRAME payload` to `sink` passes exactly `octets` to the sink, answers `OK` and changes nothing
else. -/
def Emits (s : State) (sink : Nat) (payload octets : List Octet) : Prop :=
  exec (.sendFrame sink payload) s = .next { s with events := s.events ++ [.tx sink octets .ok] }

/-- `n` steps, as `Host.Core.run` takes them. -/
def runSteps : Nat → State → Host.Outcome State Fault Refusal
  | 0, s => .next s
  | n + 1, s =>
    match step s with
    | .next s' => runSteps n s'
    | .fault f => .fault f
    | .refused r => .refused r

end Sys2Proof.Machine
end

