-- ==== Sys2Proof/Certificates/Slice0/Obligations.lean ====
section
/-! DEFINITION. The statements for the provers. "Derived" statements rest on a conclusion or a decision the spec marks
as its own, or on a convention of the model's log, and say so. The `rx_status` that the receiver's statements record is
the output the spec adds to the source (its decision D5). -/

open Sys2Proof Sys2Proof.Machine

/-! ## Encoding -/

/-- Every well-formed operation's octets, presented at its interface, decode to it (30_encoding.md sections 3, 4, 7).
The octet order of `CRC_UPDATE`'s operands (log 9) and the stuffer's interface (log 10) are the model's choice. -/
def Obligations.DecodeOfEncodeIsIdentity : Prop :=
  ∀ i : Instr, i.wf = true → decode i.port i.escapeBefore (encode i) = .instr i

/-- What decodes is well formed, belongs to the interface and the flag it was read with, and encodes back to the octets
read: no two calls of one interface and flag decode to one operation. The layout of `CRC_UPDATE`'s operands (log 9), the
stuffer's interface (log 10) and the refusal of other operand counts (log 18) are the model's choice. -/
def Obligations.EncodeOfDecodeIsIdentity : Prop :=
  ∀ (port : Interface) (esc : Bool) (octets : List Octet) (i : Instr), decode port esc octets = .instr i →
    i.wf = true ∧ i.port = port ∧ encode i = octets ∧ (∀ ctx, port = .rxOctet ctx → i.escapeBefore = esc)

/-- A few words of the tables of 30_encoding.md R53 and R56 and of opcode_table.json, bit by bit. The octet order of
`CRC_UPDATE`'s operands (`b`, then the low, then the high octet of `crc`) is the model's choice (log 9), and so is the
stuffer's interface (log 10). -/
def Obligations.WrittenOutWordsDecode : Prop :=
  decode (.rxOctet 2) false [0b01111110#8] = .instr (.rxFlag 2) ∧
  decode (.rxOctet 2) true [0b01111110#8] = .instr (.rxFlagEsc 2) ∧
  decode (.rxOctet 2) false [0b01111101#8] = .instr (.rxEsc 2) ∧
  decode (.rxOctet 2) true [0b01111101#8] = .instr (.rxDataEsc 2 0b01111101#8) ∧
  decode (.rxOctet 2) false [0b01000001#8] = .instr (.rxData 2 0b01000001#8) ∧
  decode .stuff false [0b01111101#8] = .instr .stuffEsc7D ∧
  decode .stuff false [0b01111110#8] = .instr .stuffEsc7E ∧
  decode .stuff false [0b01011110#8] = .instr (.stuffLit 0b01011110#8) ∧
  decode .crcUpdate false [0b01010110#8, 0b00110100#8, 0b00010010#8] =
    .instr (.crcUpdate 0b0001001000110100#16 0b01010110#8) ∧
  decode (.txFrame 4) false [0b01000001#8] = .instr (.sendFrame 4 [0b01000001#8]) ∧
  decode (.rxInit 1) false [] = .instr (.rxInit 1)

/-- A call with a number of operand octets that its interface does not take is rejected by name. The refusal is the
model's own (log 18), as are the three octets of `CRC_UPDATE` (log 9) and the stuffer's interface (log 10); that each
interface carries its operands and nothing else is 70_reset_and_hazards.md section 5. -/
def Obligations.WrongOperandCountIsRejected : Prop :=
  ∀ (esc : Bool) (octets : List Octet) (ctx : Nat),
    (octets.length ≠ 3 → decode .crcUpdate esc octets = .rejected .crcOperandOctets) ∧
    (octets.length ≠ 1 → decode .stuff esc octets = .rejected .stuffOperandOctets) ∧
    (octets.length ≠ 0 → decode (.rxInit ctx) esc octets = .rejected .rxInitOperandOctets) ∧
    (octets.length ≠ 1 → decode (.rxOctet ctx) esc octets = .rejected .rxOctetOperandOctets)

/-- 20_memory.md section 10: no store into a buffer changes how a call is decoded. Two states that agree on what is
presented, on what was performed and on the flags of their contexts run the same operation next. -/
def Obligations.DecodingDependsOnFlagsOnly : Prop :=
  ∀ (s s' : State), s'.pending = s.pending → s'.events = s.events →
    (∀ ctx, (s'.context? ctx).map (fun c => c.escapeActive) = (s.context? ctx).map (fun c => c.escapeActive)) →
    ∀ (i : Instr) (t : State), fetch s = .run i t → ∃ t', fetch s' = .run i t' ∧ t'.pending = t.pending

/-! ## The step -/

/-- The oldest call presented, when it decodes and overlaps no earlier call on its context or sink, is what the step
performs, on the state with that call taken. The list of presented calls is the model's own (log 7), and so is how a call
says which earlier ones it overlaps (log 13). -/
def Obligations.StepPerformsNextCall : Prop :=
  ∀ (s : State) (call : Call) (rest : List Call) (i : Instr),
    s.pending = call :: rest → conflict s call = none →
    decode call.port (escapeSeen s call.port) call.octets = .instr i →
    step s = exec i { s with pending := rest }

/-- With nothing presented a step changes nothing (60_exceptions.md section 12; the idle step is the model's form of it,
log 7). -/
def Obligations.IdleStepKeepsState : Prop :=
  ∀ s : State, s.pending = [] → step s = .next s

/-- 42_receiver.md R97: `RX_OCTET` tests the octet in this order and runs exactly one case. -/
def Obligations.RxOctetRunsOneCase : Prop :=
  ∀ (s : State) (ctx : Nat) (c : Context) (b : Octet) (rest : List Call),
    s.pending = { port := .rxOctet ctx, octets := [b], during := [] } :: rest → s.context? ctx = some c →
    step s =
      exec (if b = 0x7E#8 then (if c.escapeActive = true then .rxFlagEsc ctx else .rxFlag ctx)
            else if c.escapeActive = true then .rxDataEsc ctx b
            else if b = 0x7D#8 then .rxEsc ctx
            else .rxData ctx b) { s with pending := rest }

/-- An operation on a context presented before an earlier operation on that context had ended, by a second agent or from
inside the context's own frame_out, is given no meaning (20_memory.md section 7, 60_exceptions.md section 5; the spec's
decision D8; how a call says so is the model's, log 13). -/
def Obligations.UnserialisedContextUseIsRefused : Prop :=
  ∀ (s : State) (ctx k : Nat) (call : Call) (rest : List Call) (e : Event),
    s.pending = call :: rest → (call.port = .rxOctet ctx ∨ call.port = .rxInit ctx) → k ∈ call.during →
    s.events.reverse[k]? = some e → (e = .rxInit ctx ∨ ∃ f st, e = .rx ctx f st) →
    step s = .refused (.unserialised (.context ctx))

/-- A `SEND_FRAME` presented before an earlier one on the same sink had ended is given no meaning
(41_stuffer_encoder.md section 2; the spec's decision D11; log 13). -/
def Obligations.OverlappingSendFramesAreRefused : Prop :=
  ∀ (s : State) (sink k : Nat) (call : Call) (rest : List Call) (octets : List Octet) (r : TxResult),
    s.pending = call :: rest → call.port = .txFrame sink → k ∈ call.during →
    s.events.reverse[k]? = some (.tx sink octets r) →
    step s = .refused (.unserialised (.sink sink))

/-! ## The Checksum Engine -/

/-- 40_crc.md R70: the result is the source's formula, for all operands; nothing else changes. -/
def Obligations.CrcUpdateComputesFormula : Prop :=
  ∀ (s : State) (crc : Word) (b : Octet),
    ∃ r : Word, exec (.crcUpdate crc b) s = .next { s with events := s.events ++ [.crc r] } ∧
      r.toNat = crcUpdateNat crc.toNat b.toNat

/-- 40_crc.md R71: the checksum of a sequence is the left fold of `crc_update` from `0xFFFF`. -/
def Obligations.Crc16FoldsFromInit : Prop :=
  crc16 [] = 0xFFFF#16 ∧ ∀ (xs : List Octet) (b : Octet), crc16 (xs ++ [b]) = crcStep (crc16 xs) b

/-- 40_crc.md section 4, identities 1 and 2: absorbing the accumulator's own low octet shifts it right by eight;
absorbing both its octets, low first, gives zero, so a payload followed by its FCS has checksum zero. -/
def Obligations.CrcOfOwnOctetsIsZero : Prop :=
  (∀ crc : Word, crcStep crc (crc.extractLsb' 0 8) = crc >>> 8) ∧
  (∀ p : List Octet, crc16 (p ++ [(crc16 p).extractLsb' 0 8, (crc16 p).extractLsb' 8 8]) = 0x0000#16)

/-- 40_crc.md section 4, identity 3: `crc_update` is linear over XOR. -/
def Obligations.CrcUpdateIsLinear : Prop :=
  ∀ (c1 c2 : Word) (b1 b2 : Octet), crcStep (c1 ^^^ c2) (b1 ^^^ b2) = crcStep c1 b1 ^^^ crcStep c2 b2

/-- 40_crc.md section 4, identity 4: a bijection in the accumulator, injective in the octet. -/
def Obligations.CrcUpdateIsBijective : Prop :=
  (∀ (b : Octet) (c1 c2 : Word), crcStep c1 b = crcStep c2 b → c1 = c2) ∧
  (∀ (b : Octet) (r : Word), ∃ c : Word, crcStep c b = r) ∧
  (∀ (c : Word) (b1 b2 : Octet), crcStep c b1 = crcStep c b2 → b1 = b2)

/-- 40_crc.md section 4: `crc_update` equals the bit-serial procedure with feedback constant `0x8408`. -/
def Obligations.CrcUpdateEqualsBitSerial : Prop :=
  ∀ (crc : Word) (b : Octet), crcStep crc b = crcBitSerial crc b

/-! ## The Byte Stuffer -/

/-- 41_stuffer_encoder.md R80: `stuff(b)` for all 256 octets, each by its row; nothing else changes. -/
def Obligations.StuffRowsReturnTheirOctets : Prop :=
  ∀ s : State,
    (∀ b : Octet, b ≠ 0x7D#8 → b ≠ 0x7E#8 →
      exec (.stuffLit b) s = .next { s with events := s.events ++ [.stuffed [b]] }) ∧
    exec .stuffEsc7D s = .next { s with events := s.events ++ [.stuffed [0x7D#8, 0x7D#8 ^^^ 0x20#8]] } ∧
    exec .stuffEsc7E s = .next { s with events := s.events ++ [.stuffed [0x7D#8, 0x7E#8 ^^^ 0x20#8]] }

/-- 41_stuffer_encoder.md section 1: no octet the stuffer returns is `0x7E`, and `0x7D` is only ever the first of two. -/
def Obligations.StuffedOctetsHoldNoFlag : Prop :=
  ∀ (i : Instr) (s : State) (octets : List Octet),
    exec i s = .next { s with events := s.events ++ [.stuffed octets] } →
    0x7E#8 ∉ octets ∧ ∀ k, octets[k]? = some 0x7D#8 → k = 0 ∧ octets.length = 2

/-- 41_stuffer_encoder.md section 1: de-stuffing a stuffed sequence returns it. -/
def Obligations.DestuffUndoesStuff : Prop :=
  ∀ xs : List Octet, destuff (xs.flatMap stuff) = xs

/-! ## The Frame Encoder -/

/-- 41_stuffer_encoder.md R85: the octets one `SEND_FRAME` passes to its sink, in order: `0x7E`, each payload octet
stuffed, the FCS stuffed low octet first, `0x7E`, the FCS being the checksum of the unstuffed payload; nothing else
changes. Holds for every payload the length check lets through. -/
def Obligations.SendFrameEmitsFrame : Prop :=
  ∀ (s : State) (sink : Nat) (p : List Octet),
    ¬(s.cfg.txLengthCheck = .reject ∧ s.cfg.maxFrameLength < p.length) →
    exec (.sendFrame sink p) s =
      .next { s with events := s.events ++
        [.tx sink ([0x7E#8] ++ p.flatMap wireForm ++ wireForm ((p.foldl crcStep 0xFFFF#16).extractLsb' 0 8)
          ++ wireForm ((p.foldl crcStep 0xFFFF#16).extractLsb' 8 8) ++ [0x7E#8]) .ok] }

/-- A payload longer than `MAX_FRAME_LENGTH` under `REJECT`: no octet is emitted and the call answers
`PayloadTooLarge(n)` (41_stuffer_encoder.md section 2; the spec's decision D3). -/
def Obligations.LongPayloadIsRejected : Prop :=
  ∀ (s : State) (sink : Nat) (p : List Octet),
    s.cfg.txLengthCheck = .reject → s.cfg.maxFrameLength < p.length →
    exec (.sendFrame sink p) s =
      .next { s with events := s.events ++ [.tx sink [] (.payloadTooLarge p.length)] }

/-- 41_stuffer_encoder.md section 2: `4 + n + e` octets, between `n + 4` and `2n + 6`, of which exactly two are `0x7E`,
the first and the last. -/
def Obligations.FrameLengthAndBoundaries : Prop :=
  ∀ (s : State) (sink : Nat) (p octets : List Octet), Emits s sink p octets →
    octets.length = 4 + p.length +
      reservedCount (p ++ [(crc16 p).extractLsb' 0 8, (crc16 p).extractLsb' 8 8]) ∧
    p.length + 4 ≤ octets.length ∧ octets.length ≤ 2 * p.length + 6 ∧
    octets.head? = some 0x7E#8 ∧ octets.getLast? = some 0x7E#8 ∧ octets.count 0x7E#8 = 2

/-- 41_stuffer_encoder.md section 3: de-stuffing the octets between the two boundaries gives the payload and its FCS. -/
def Obligations.FrameBodyDestuffsToPayloadAndFcs : Prop :=
  ∀ (s : State) (sink : Nat) (p octets : List Octet), Emits s sink p octets →
    ∃ body : List Octet, octets = [0x7E#8] ++ body ++ [0x7E#8] ∧ 0x7E#8 ∉ body ∧
      destuff body = p ++ [(crc16 p).extractLsb' 0 8, (crc16 p).extractLsb' 8 8]

/-- 41_stuffer_encoder.md R90: a payload of reserved octets only is sent with every octet preceded by `0x7D` and XORed
with `0x20`, `2n` octets in all, and de-stuffing that part gives it back. -/
def Obligations.ReservedPayloadIsEscapedThroughout : Prop :=
  ∀ (s : State) (sink : Nat) (p octets : List Octet), Emits s sink p octets →
    (∀ b ∈ p, b = 0x7D#8 ∨ b = 0x7E#8) →
    ∃ body tail : List Octet, octets = [0x7E#8] ++ body ++ tail ∧ body.length = 2 * p.length ∧
      (∀ k, k < p.length → body[2 * k]? = some 0x7D#8 ∧ body[2 * k + 1]? = p[k]?.map (fun b => b ^^^ 0x20#8)) ∧
      destuff body = p

/-- 41_stuffer_encoder.md R86: `SEND_FRAME` leaves no state behind, and two calls with the same payload emit the same
octets (in blocks with the same parameters, from any two states, to any sinks). -/
def Obligations.SendFrameLeavesNothingBehind : Prop :=
  ∀ (s s' t t' : State) (sink sink' : Nat) (p : List Octet), s'.cfg = s.cfg →
    exec (.sendFrame sink p) s = .next t → exec (.sendFrame sink' p) s' = .next t' →
    ∃ (octets : List Octet) (r : TxResult), t = { s with events := s.events ++ [.tx sink octets r] } ∧
      t' = { s' with events := s'.events ++ [.tx sink' octets r] }

/-! ## The Frame Receiver: RX_INIT -/

/-- 42_receiver.md R96: construction puts the context in its reset state; nothing is claimed of its buffer. -/
def Obligations.RxInitConstructsContext : Prop :=
  ∀ (s : State) (ctx : Nat), s.cfg.Legal → s.contexts[ctx]? = some none →
    ∃ m : Memory, exec (.rxInit ctx) s =
      .next { s with
        contexts := s.contexts.set ctx
          (some { escapeActive := false, position := 0, checksum := 0xFFFF#16, buffer := m })
        events := s.events ++ [.rxInit ctx] }

/-- `RX_INIT` of a live context: the same registers, the buffer untouched (42_receiver.md section 2; that a live context
may be re-initialised is the spec's decision D15). -/
def Obligations.RxInitRestartsLiveContext : Prop :=
  ∀ (s : State) (ctx : Nat) (c : Context), s.cfg.Legal → s.context? ctx = some c →
    exec (.rxInit ctx) s =
      .next { s with
        contexts := s.contexts.set ctx
          (some { escapeActive := false, position := 0, checksum := 0xFFFF#16, buffer := c.buffer })
        events := s.events ++ [.rxInit ctx] }

/-- The uses the receiver refuses: a row on a context never initialised (the spec's decision D15) or on a number the
block does not have (the model's, log 14); construction in a block with `MAX_FRAME_LENGTH` below 3 (that bound is the
spec's decision D6) or without contexts, where the refusal itself is the model's (log 15); construction of a number the
block does not have (log 14); and a row whose condition on `escape_active` does not hold (the model's, log 12). -/
def Obligations.ReceiverRefusals : Prop :=
  ∀ (s : State) (ctx : Nat) (i : Instr),
    (i.port = .rxOctet ctx → s.context? ctx = none → exec i s = .refused (.contextNotConstructed ctx)) ∧
    (i = .rxInit ctx → ¬s.cfg.Legal → exec i s = .refused .illegalConfiguration) ∧
    (i = .rxInit ctx → s.cfg.Legal → s.contexts.length ≤ ctx → exec i s = .refused (.noSuchContext ctx)) ∧
    (∀ c, i.port = .rxOctet ctx → s.context? ctx = some c → c.escapeActive ≠ i.escapeBefore →
      exec i s = .refused .caseNotSelected)

/-! ## The Frame Receiver: boundaries -/

/-- 42_receiver.md R98: with at least two octets held and the checksum equal to the little-endian value of the last two,
the payload before them is delivered, and the registers are reset. -/
def Obligations.RxFlagDeliversValidFrame : Prop :=
  ∀ (s : State) (ctx : Nat) (c : Context) (p : List Octet) (lo hi : Octet),
    s.context? ctx = some c → c.escapeActive = false → c.Holds (p ++ [lo, hi]) →
    p.length + 2 ≤ s.cfg.maxFrameLength →
    c.checksum = lo.zeroExtend 16 ||| (hi.zeroExtend 16 <<< 8) →
    exec (.rxFlag ctx) s =
      .next { s with
        contexts := s.contexts.set ctx
          (some { escapeActive := false, position := 0, checksum := 0xFFFF#16, buffer := c.buffer })
        events := s.events ++ [.rx ctx (some p) .frameOk] }

/-- 42_receiver.md R99 (and 60_exceptions.md R121): a boundary that fails the test delivers nothing; the status tells
how it failed; the registers are reset. -/
def Obligations.RxFlagDiscardsInvalidFrame : Prop :=
  ∀ (s : State) (ctx : Nat) (c : Context),
    s.context? ctx = some c → c.escapeActive = false →
    (c.position < 2 →
      exec (.rxFlag ctx) s =
        .next { s with
          contexts := s.contexts.set ctx
            (some { escapeActive := false, position := 0, checksum := 0xFFFF#16, buffer := c.buffer })
          events := s.events ++ [.rx ctx none (if c.position = 0 then .none else .runt)] }) ∧
    (∀ (p : List Octet) (lo hi : Octet), c.Holds (p ++ [lo, hi]) → p.length + 2 ≤ s.cfg.maxFrameLength →
      c.checksum ≠ lo.zeroExtend 16 ||| (hi.zeroExtend 16 <<< 8) →
      exec (.rxFlag ctx) s =
        .next { s with
          contexts := s.contexts.set ctx
            (some { escapeActive := false, position := 0, checksum := 0xFFFF#16, buffer := c.buffer })
          events := s.events ++ [.rx ctx none .checksumMismatch] })

/-- 42_receiver.md R100: whatever the boundary was, the registers are in their reset state after it and the buffer is as
it was. -/
def Obligations.RxFlagAlwaysResets : Prop :=
  ∀ (s t : State) (ctx : Nat), exec (.rxFlag ctx) s = .next t →
    ∃ c c' : Context, s.context? ctx = some c ∧ t.context? ctx = some c' ∧ c'.position = 0 ∧
      c'.checksum = 0xFFFF#16 ∧ c'.escapeActive = false ∧ c'.buffer = c.buffer

/-- `RX.FLAG_ESC` under `CANCEL_ONLY`: only the flag is cleared, nothing is delivered (42_receiver.md section 4; the
spec's decision D1). -/
def Obligations.EscapedBoundaryIsCancelled : Prop :=
  ∀ (s : State) (ctx : Nat) (c : Context),
    s.context? ctx = some c → c.escapeActive = true → s.cfg.escFlagPolicy = .cancelOnly →
    exec (.rxFlagEsc ctx) s =
      .next { s with
        contexts := s.contexts.set ctx
          (some { escapeActive := false, position := c.position, checksum := c.checksum, buffer := c.buffer })
        events := s.events ++ [.rx ctx none .escapedBoundary] }

/-- `RX.FLAG_ESC` under `ABORT_RESET`: the registers are reset, nothing is delivered whatever the buffer holds
(42_receiver.md section 4; the spec's decision D1). -/
def Obligations.EscapedBoundaryAbortsFrame : Prop :=
  ∀ (s : State) (ctx : Nat) (c : Context),
    s.context? ctx = some c → c.escapeActive = true → s.cfg.escFlagPolicy = .abortReset →
    exec (.rxFlagEsc ctx) s =
      .next { s with
        contexts := s.contexts.set ctx
          (some { escapeActive := false, position := 0, checksum := 0xFFFF#16, buffer := c.buffer })
        events := s.events ++ [.rx ctx none .escapedBoundary] }

/-! ## The Frame Receiver: escape and data -/

/-- 42_receiver.md R103: the escape octet sets the flag and does nothing else, at any position. -/
def Obligations.RxEscSetsFlagOnly : Prop :=
  ∀ (s : State) (ctx : Nat) (c : Context), s.context? ctx = some c → c.escapeActive = false →
    exec (.rxEsc ctx) s =
      .next { s with
        contexts := s.contexts.set ctx
          (some { escapeActive := true, position := c.position, checksum := c.checksum, buffer := c.buffer })
        events := s.events ++ [.rx ctx none .none] }

/-- 42_receiver.md R105, where the buffer is not filled by the octet: store at `position`, fold the octet two behind the
cursor, increment. -/
def Obligations.RxDataStoresFoldsAdvances : Prop :=
  ∀ (s : State) (ctx : Nat) (c : Context) (b x : Octet),
    s.context? ctx = some c → c.escapeActive = false → b ≠ 0x7E#8 → b ≠ 0x7D#8 →
    c.position + 1 < s.cfg.maxFrameLength →
    (2 ≤ c.position → Memory.read c.buffer (c.position - 2) = some x) →
    exec (.rxData ctx b) s =
      .next { s with
        contexts := s.contexts.set ctx
          (some { escapeActive := false, position := c.position + 1
                  checksum := if 2 ≤ c.position then crcStep c.checksum x else c.checksum
                  buffer := Memory.write c.buffer c.position b })
        events := s.events ++ [.rx ctx none .none] }

/-- 42_receiver.md R104, where the buffer is not filled by the octet: the flag is cleared and the octet XORed with
`0x20` before the store, fold and increment; no check that the octet is one the encoder produces. -/
def Obligations.RxDataEscStoresInverted : Prop :=
  ∀ (s : State) (ctx : Nat) (c : Context) (b x : Octet),
    s.context? ctx = some c → c.escapeActive = true → b ≠ 0x7E#8 →
    c.position + 1 < s.cfg.maxFrameLength →
    (2 ≤ c.position → Memory.read c.buffer (c.position - 2) = some x) →
    exec (.rxDataEsc ctx b) s =
      .next { s with
        contexts := s.contexts.set ctx
          (some { escapeActive := false, position := c.position + 1
                  checksum := if 2 ≤ c.position then crcStep c.checksum x else c.checksum
                  buffer := Memory.write c.buffer c.position (b ^^^ 0x20#8) })
        events := s.events ++ [.rx ctx none .none] }

/-- The overflow guard: the octet that fills the buffer is stored at the last index and the registers are reset in the
same operation, nothing delivered (42_receiver.md section 6; the moment of the test is the spec's decision D2). -/
def Obligations.OverflowGuardResetsContext : Prop :=
  ∀ (s : State) (ctx : Nat) (c : Context) (b x : Octet) (i : Instr),
    s.context? ctx = some c → c.position + 1 = s.cfg.maxFrameLength →
    (2 ≤ c.position → Memory.read c.buffer (c.position - 2) = some x) →
    ((i = .rxData ctx b ∧ c.escapeActive = false ∧ b ≠ 0x7E#8 ∧ b ≠ 0x7D#8) ∨
      (i = .rxDataEsc ctx b ∧ c.escapeActive = true ∧ b ≠ 0x7E#8)) →
    exec i s =
      .next { s with
        contexts := s.contexts.set ctx
          (some { escapeActive := false, position := 0, checksum := 0xFFFF#16
                  buffer := Memory.write c.buffer c.position
                    (if c.escapeActive = true then b ^^^ 0x20#8 else b) })
        events := s.events ++ [.rx ctx none .frameTooLarge] }

/-- 30_encoding.md section 5: after an escape octet, any octet but `0x7E` is data, and the value stored is the octet XOR
`0x20`; two steps of the machine. -/
def Obligations.AnyEscapedOctetIsStored : Prop :=
  ∀ (s : State) (ctx : Nat) (c : Context) (x : Octet), s.Inv → s.context? ctx = some c → c.escapeActive = false →
    x ≠ 0x7E#8 → c.position + 1 < s.cfg.maxFrameLength →
    ∃ (t : State) (c' : Context),
      runSteps 2 { s with pending := octetCalls ctx [0x7D#8, x] } = .next t ∧ t.context? ctx = some c' ∧
      c'.escapeActive = false ∧ c'.position = c.position + 1 ∧
      Memory.read c'.buffer c.position = some (x ^^^ 0x20#8)

/-! ## What is kept and what is told -/

/-- Frame of the stateless operations (`CRC_UPDATE`, `STUFF`, `SEND_FRAME`): no context, no register, no octet of any
buffer, no parameter and no presented call changes; one entry is added to what was put out. -/
def Obligations.StatelessOperationsKeepState : Prop :=
  ∀ (i : Instr) (s t : State), (∀ ctx, i.port ≠ .rxOctet ctx ∧ i.port ≠ .rxInit ctx) → exec i s = .next t →
    t.contexts = s.contexts ∧ t.cfg = s.cfg ∧ t.pending = s.pending ∧
    (∃ e, t.events = s.events ++ [e] ∧ frameOutOf e = none) ∧
    ∀ ctx c a, s.context? ctx = some c → ∃ c', t.context? ctx = some c' ∧
      Memory.read c'.buffer a = Memory.read c.buffer a

/-- Frame of the receiver's operations that store nothing (`RX_INIT` of a live context, `RX.FLAG`, `RX.FLAG_ESC`,
`RX.ESC`): every octet of the buffer reads as before; `position` and `checksum` are kept or both reset; parameters,
presented calls and all other contexts are unchanged. -/
def Obligations.NonStoringRowsKeepBuffers : Prop :=
  ∀ (i : Instr) (ctx : Nat) (s t : State) (c : Context),
    (i = .rxInit ctx ∨ i = .rxFlag ctx ∨ i = .rxFlagEsc ctx ∨ i = .rxEsc ctx) →
    s.context? ctx = some c → exec i s = .next t →
    t.cfg = s.cfg ∧ t.pending = s.pending ∧ t.contexts.length = s.contexts.length ∧
    (∃ e, t.events = s.events ++ [e]) ∧ (∀ k, k ≠ ctx → t.contexts[k]? = s.contexts[k]?) ∧
    ∃ c', t.context? ctx = some c' ∧ (∀ a, Memory.read c'.buffer a = Memory.read c.buffer a) ∧
      ((c'.position = c.position ∧ c'.checksum = c.checksum) ∨ (c'.position = 0 ∧ c'.checksum = 0xFFFF#16)) ∧
      (i = .rxEsc ctx → c'.position = c.position ∧ c'.checksum = c.checksum)

/-- Frame of the receiver's operations that store (`RX.DATA`, `RX.DATA_ESC`): every octet of the buffer but the one at
`position` as it stood before reads as before; parameters, presented calls and all other contexts are unchanged. -/
def Obligations.StoringRowsKeepTheRest : Prop :=
  ∀ (i : Instr) (ctx : Nat) (b : Octet) (s t : State) (c : Context),
    (i = .rxData ctx b ∨ i = .rxDataEsc ctx b) → s.context? ctx = some c → exec i s = .next t →
    t.cfg = s.cfg ∧ t.pending = s.pending ∧ t.contexts.length = s.contexts.length ∧
    (∃ st, t.events = s.events ++ [.rx ctx none st]) ∧ (∀ k, k ≠ ctx → t.contexts[k]? = s.contexts[k]?) ∧
    ∃ c', t.context? ctx = some c' ∧ c'.escapeActive = false ∧
      ∀ a, a ≠ c.position → Memory.read c'.buffer a = Memory.read c.buffer a

/-- 20_memory.md R34: the only store the block performs is of one octet at `position`, in a data case, and it is inside
the buffer; after it that index reads as the octet stored, and nothing else of the buffer has changed. -/
def Obligations.OnlyStoreIsAtPosition : Prop :=
  ∀ (i : Instr) (s t : State) (ctx : Nat) (c c' : Context), s.context? ctx = some c → exec i s = .next t →
    t.context? ctx = some c' →
    (∀ a, Memory.read c'.buffer a ≠ Memory.read c.buffer a →
      a = c.position ∧ ∃ b, i = .rxData ctx b ∨ i = .rxDataEsc ctx b) ∧
    (∀ b, i = .rxData ctx b →
      c.position < s.cfg.maxFrameLength ∧ Memory.read c'.buffer c.position = some b) ∧
    (∀ b, i = .rxDataEsc ctx b →
      c.position < s.cfg.maxFrameLength ∧ Memory.read c'.buffer c.position = some (b ^^^ 0x20#8))

/-- 20_memory.md R41: an operation on one context writes only that context, reads only that context and reports only to
that context's consumer: what it leaves there and what it puts out are the same from any two states that agree on the
parameters and on that context. -/
def Obligations.ContextsShareNothing : Prop :=
  ∀ (i : Instr) (ctx : Nat) (s t : State), (i.port = .rxOctet ctx ∨ i.port = .rxInit ctx) → exec i s = .next t →
    (∀ k, k ≠ ctx → t.contexts[k]? = s.contexts[k]?) ∧
    ∀ s' : State, s'.cfg = s.cfg → s'.contexts[ctx]? = s.contexts[ctx]? →
      ∃ (t' : State) (e : Event), exec i s' = .next t' ∧ t'.contexts[ctx]? = t.contexts[ctx]? ∧
        t.events = s.events ++ [e] ∧ t'.events = s'.events ++ [e] ∧ (e = .rxInit ctx ∨ ∃ f st, e = .rx ctx f st)

/-- 20_memory.md section 5: octets at or above `position` reach no output. Replacing them changes neither what an
operation on the context puts out, nor the registers it leaves, nor the octets below the new `position`. -/
def Obligations.StaleOctetsReachNoOutput : Prop :=
  ∀ (i : Instr) (ctx : Nat) (s t : State) (c : Context) (m : Memory), i.port = .rxOctet ctx →
    s.context? ctx = some c → (∀ k, k < c.position → Memory.read m k = Memory.read c.buffer k) →
    exec i s = .next t →
    ∃ (t' : State) (d d' : Context),
      exec i { s with contexts := s.contexts.set ctx (some { c with buffer := m }) } = .next t' ∧
      t'.events = t.events ∧ t.context? ctx = some d ∧ t'.context? ctx = some d' ∧
      d'.escapeActive = d.escapeActive ∧ d'.position = d.position ∧ d'.checksum = d.checksum ∧
      ∀ k, k < d.position → Memory.read d'.buffer k = Memory.read d.buffer k

/-- 42_receiver.md section 8: a `frame_out` happens only in `RX.FLAG`, at most one an operation. -/
def Obligations.FrameOutOnlyFromFlag : Prop :=
  ∀ (i : Instr) (s t : State), exec i s = .next t →
    ∃ e, t.events = s.events ++ [e] ∧ ∀ ctx p, frameOutOf e = some (ctx, p) → i = .rxFlag ctx

/-- 42_receiver.md sections 8 and 9: a delivered payload is the octets held less the last two, which are its FCS, and is
at most `MAX_FRAME_LENGTH - 3` octets long. -/
def Obligations.DeliveredPayloadIsCheckedAndBounded : Prop :=
  ∀ (i : Instr) (s t : State) (ctx : Nat) (p : List Octet) (st : RxStatus), s.Inv → exec i s = .next t →
    t.events = s.events ++ [.rx ctx (some p) st] →
    i = .rxFlag ctx ∧ st = .frameOk ∧ p.length + 3 ≤ s.cfg.maxFrameLength ∧
    ∃ c, s.context? ctx = some c ∧
      c.Holds (p ++ [(crc16 p).extractLsb' 0 8, (crc16 p).extractLsb' 8 8])

/-- 60_exceptions.md section 1: `rx_status` is the function of the state before and the octet that the table gives (the
output is the spec's decision D5). -/
def Obligations.RxStatusFollowsTable : Prop :=
  ∀ (s t : State) (ctx : Nat) (c : Context) (xs : List Octet) (b : Octet), s.context? ctx = some c → c.Holds xs →
    exec (rxRow ctx c.escapeActive b) s = .next t →
    ∃ f, t.events = s.events ++ [.rx ctx f (rxStatusTable s.cfg c xs b)]

/-- 10_state.md section 2: `escape_active` is true after an octet exactly if the octet was an escape arriving while it
was false, so it is never true after two octets running. -/
def Obligations.EscapeFlagIsSetByEscOnly : Prop :=
  ∀ (i : Instr) (s t : State) (ctx : Nat) (c c' : Context), i.port = .rxOctet ctx → s.context? ctx = some c →
    exec i s = .next t → t.context? ctx = some c' →
    (c'.escapeActive = true ↔ i = .rxEsc ctx) ∧ (c.escapeActive = true → c'.escapeActive = false)

/-- 10_state.md section 2: `position` stays and the checksum with it, or becomes 0 and the checksum `0xFFFF`, or goes up
by one, staying below `MAX_FRAME_LENGTH`; then the octet two behind the old `position`, if there is one, has been
absorbed into the checksum. -/
def Obligations.PositionMovesByOneOrToZero : Prop :=
  ∀ (i : Instr) (s t : State) (ctx : Nat) (c c' : Context), s.context? ctx = some c → exec i s = .next t →
    t.context? ctx = some c' →
    (c'.position = c.position ∧ c'.checksum = c.checksum) ∨ (c'.position = 0 ∧ c'.checksum = 0xFFFF#16) ∨
    (c'.position = c.position + 1 ∧ c'.position < s.cfg.maxFrameLength ∧
      (c.position < 2 → c'.checksum = c.checksum) ∧
      (∀ x, 2 ≤ c.position → Memory.read c.buffer (c.position - 2) = some x →
        c'.checksum = crcStep c.checksum x))

/-- 10_state.md section 5: the octets held follow the stream: a data octet is appended (or all are dropped when it fills
the buffer), an escape and a cancelled boundary leave them, a boundary empties them. -/
def Obligations.HeldOctetsFollowTheStream : Prop :=
  ∀ (s t : State) (ctx : Nat) (c c' : Context) (xs : List Octet) (b : Octet), s.context? ctx = some c → c.Holds xs →
    exec (rxRow ctx c.escapeActive b) s = .next t → t.context? ctx = some c' →
    c'.Holds (
      if b = 0x7E#8 then
        (if c.escapeActive = true ∧ s.cfg.escFlagPolicy = .cancelOnly then xs else [])
      else if b = 0x7D#8 ∧ c.escapeActive = false then xs
      else if xs.length + 1 = s.cfg.maxFrameLength then []
      else xs ++ [if c.escapeActive = true then b ^^^ 0x20#8 else b])

/-! ## Invariants and whole-machine rules -/

/-- The state after reset: every context in the reset state of 10_state.md section 9, nothing presented, nothing put
out. That the contexts stand constructed, and how many, is the model's choice (log 2, log 3). -/
def Obligations.ResetContextsAreReset : Prop :=
  (∀ ctx, ctx < State.reset.cfg.nContexts → ∃ c, State.reset.context? ctx = some c ∧ c.IsReset) ∧
  State.reset.pending = [] ∧ State.reset.events = []

/-- The state after reset meets the invariant. That its parameters are legal, as many contexts standing as they say,
rests on the model's choice of 1024 for `MAX_FRAME_LENGTH` (log 1), on the spec's defaults as log 2 reads them, and on
the contexts standing constructed (log 3); 10_state.md sections 5 and 9 give the rest. -/
def Obligations.ResetMeetsInvariant : Prop := State.reset.Inv

/-- Every step keeps the invariant: `position` below `MAX_FRAME_LENGTH`, the buffer in canonical form and inside its
bounds, all octets below `position` stored, the checksum trailing by two (10_state.md section 5); and, by the model's choice
(log 14, log 16), legal parameters and as many contexts as they say. -/
def Obligations.StepKeepsInvariant : Prop :=
  ∀ s t : State, s.Inv → step s = .next t → t.Inv

/-- No step from a sound state faults: no access is outside the buffer and no octet is read that was not stored
(20_memory.md sections 4 and 5; 60_exceptions.md section 1). -/
def Obligations.StepNeverFaults : Prop :=
  ∀ (s : State) (f : Fault), s.Inv → step s ≠ .fault f

/-- No step changes the parameters (00_scope.md section 4; that one set of them stands in the state is log 16); the
number of contexts stays (a parameter, 00_scope.md section 4; that the host constructs no further ones is the model's
choice, log 14); and a constructed context stays constructed (10_state.md section 9). -/
def Obligations.ParametersAndContextsPersist : Prop :=
  ∀ (s t : State) (ctx : Nat), step s = .next t →
    t.cfg = s.cfg ∧ t.contexts.length = s.contexts.length ∧
    ((∃ c, s.context? ctx = some c) → ∃ c', t.context? ctx = some c')

/-- Every octet completes at a sound, constructed context: exactly one case runs and it ends in a next state
(30_encoding.md section 3, 60_exceptions.md section 1, 70_reset_and_hazards.md section 4). -/
def Obligations.EveryOctetCompletes : Prop :=
  ∀ (s : State) (ctx : Nat) (c : Context) (b : Octet), s.Inv → s.context? ctx = some c →
    ∃ (t : State) (f : Option (List Octet)) (st : RxStatus),
      exec (rxRow ctx c.escapeActive b) s = .next t ∧ t.events = s.events ++ [.rx ctx f st] ∧ t.Inv

/-- 42_receiver.md section 9, the round trip: the octets one `SEND_FRAME` emits, fed one by one to a context in its
reset state, deliver the payload exactly once, at the last octet, and leave the context in its reset state and every
other context alone, for every payload of at most `MAX_FRAME_LENGTH - 3` octets. The sender may be any block. -/
def Obligations.FramesRoundTrip : Prop :=
  ∀ (tx s : State) (sink ctx : Nat) (c : Context) (p octets : List Octet),
    Emits tx sink p octets → s.Inv → s.context? ctx = some c → c.IsReset →
    p.length + 3 ≤ s.cfg.maxFrameLength →
    ∃ (t : State) (before : List Event) (c' : Context),
      runSteps octets.length { s with pending := octetCalls ctx octets } = .next t ∧
      t.events = s.events ++ before ++ [.rx ctx (some p) .frameOk] ∧ (∀ e ∈ before, frameOutOf e = none) ∧
      before.length + 1 = octets.length ∧ t.pending = [] ∧ t.context? ctx = some c' ∧ c'.IsReset ∧
      ∀ k, k ≠ ctx → t.contexts[k]? = s.contexts[k]?

/-- 42_receiver.md section 9, resynchronisation: whatever a sound context that is not escaping holds, the next complete
frame is delivered at its last octet. -/
def Obligations.NextFrameIsDeliveredAfterGarbage : Prop :=
  ∀ (tx s : State) (sink ctx : Nat) (c : Context) (p octets : List Octet),
    Emits tx sink p octets → s.Inv → s.context? ctx = some c → c.escapeActive = false →
    p.length + 3 ≤ s.cfg.maxFrameLength →
    ∃ (t : State) (before : List Event) (c' : Context),
      runSteps octets.length { s with pending := octetCalls ctx octets } = .next t ∧
      t.events = s.events ++ before ++ [.rx ctx (some p) .frameOk] ∧ before.length + 1 = octets.length ∧
      t.context? ctx = some c' ∧ c'.IsReset
end

