-- ==== Sys2Proof/Laws/Decode.lean ====
section
/-! SUPPORT. When an octet is in each class (30_encoding.md R53, R56), and the two octets of a 16-bit value. -/

namespace Sys2Proof

theorem rxCase_eq_flag {e : Bool} {b : Octet} : rxCase e b = .flag ↔ e = false ∧ b = flagOctet := by
  cases e <;> simp [rxCase] <;> repeat (first | split | simp_all)

theorem rxCase_eq_flagEsc {e : Bool} {b : Octet} : rxCase e b = .flagEsc ↔ e = true ∧ b = flagOctet := by
  cases e <;> simp [rxCase] <;> repeat (first | split | simp_all)

theorem rxCase_eq_esc {e : Bool} {b : Octet} : rxCase e b = .esc ↔ e = false ∧ b = escOctet := by
  cases e <;> simp [rxCase] <;> repeat (first | split | simp_all [flagOctet, escOctet])

theorem rxCase_eq_dataEsc {e : Bool} {b : Octet} : rxCase e b = .dataEsc ↔ e = true ∧ b ≠ flagOctet := by
  cases e <;> simp [rxCase] <;> repeat (first | split | simp_all)

theorem rxCase_eq_data {e : Bool} {b : Octet} :
    rxCase e b = .data ↔ e = false ∧ b ≠ flagOctet ∧ b ≠ escOctet := by
  cases e <;> simp [rxCase] <;> repeat (first | split | simp_all)

theorem stuffCase_eq_esc7D {b : Octet} : stuffCase b = .esc7D ↔ b = escOctet := by
  unfold stuffCase
  repeat (first | split | simp_all)

theorem stuffCase_eq_esc7E {b : Octet} : stuffCase b = .esc7E ↔ b = flagOctet := by
  unfold stuffCase
  repeat (first | split | simp_all [escOctet, flagOctet])

theorem stuffCase_eq_lit {b : Octet} : stuffCase b = .lit ↔ b ≠ escOctet ∧ b ≠ flagOctet := by
  simp [stuffCase] <;> repeat (first | split | simp_all)

theorem rxCase_flag : rxCase false 0x7E#8 = .flag := by decide
theorem rxCase_flagEsc : rxCase true 0x7E#8 = .flagEsc := by decide
theorem rxCase_esc : rxCase false 0x7D#8 = .esc := by decide

/-- Bit by bit, `{hi, lo}` is `lo` below bit 8 and `hi` above. -/
theorem joinOctets_getLsbD (hi lo : Octet) (k : Nat) :
    (joinOctets hi lo).getLsbD k = if k < 8 then lo.getLsbD k else hi.getLsbD (k - 8) := by
  show (hi ++ lo : BitVec (8 + 8)).getLsbD k = _
  rw [BitVec.getLsbD_append]

theorem lowOctet_getLsbD (v : Word) (k : Nat) : (lowOctet v).getLsbD k = (decide (k < 8) && v.getLsbD k) := by
  simp [lowOctet]

theorem highOctet_getLsbD (v : Word) (k : Nat) :
    (highOctet v).getLsbD k = (decide (k < 8) && v.getLsbD (8 + k)) := by
  simp [highOctet]

@[simp] theorem lowOctet_joinOctets (hi lo : Octet) : lowOctet (joinOctets hi lo) = lo := by
  apply BitVec.eq_of_getLsbD_eq
  intro k hk
  rw [lowOctet_getLsbD, joinOctets_getLsbD]
  simp [hk]

@[simp] theorem highOctet_joinOctets (hi lo : Octet) : highOctet (joinOctets hi lo) = hi := by
  apply BitVec.eq_of_getLsbD_eq
  intro k hk
  rw [highOctet_getLsbD, joinOctets_getLsbD]
  simp [hk]

@[simp] theorem joinOctets_octets (v : Word) : joinOctets (highOctet v) (lowOctet v) = v := by
  apply BitVec.eq_of_getLsbD_eq
  intro k hk
  rw [joinOctets_getLsbD, lowOctet_getLsbD, highOctet_getLsbD]
  split
  · simp [*]
  · have h8 : k - 8 < 8 := by omega
    have hk8 : 8 + (k - 8) = k := by omega
    simp [h8, hk8]

/-- `{hi, lo}` is `lo OR (hi << 8)` (30_encoding.md R55). -/
theorem joinOctets_eq_or (hi lo : Octet) :
    joinOctets hi lo = lo.zeroExtend 16 ||| (hi.zeroExtend 16 <<< 8) := by
  apply BitVec.eq_of_getLsbD_eq
  intro k hk
  rw [joinOctets_getLsbD]
  by_cases h : k < 8
  · simp [h, hk]
  · have : lo.getLsbD k = false := BitVec.getLsbD_of_ge lo k (by omega)
    simp [h, hk, this]

end Sys2Proof
end

