-- ==== Sys2Proof/Laws/State.lean ====
section
/-! SUPPORT. One lemma per field per update of the state and of a context, and what a context update does to the look-up
of contexts, so that no later proof unfolds a record update. -/

namespace Sys2Proof.Machine

@[simp] theorem State.setContext_cfg (s : State) (ctx : Nat) (c : Context) : (s.setContext ctx c).cfg = s.cfg := rfl
@[simp] theorem State.setContext_contexts (s : State) (ctx : Nat) (c : Context) :
    (s.setContext ctx c).contexts = s.contexts.set ctx (some c) := rfl
@[simp] theorem State.setContext_pending (s : State) (ctx : Nat) (c : Context) :
    (s.setContext ctx c).pending = s.pending := rfl
@[simp] theorem State.setContext_events (s : State) (ctx : Nat) (c : Context) :
    (s.setContext ctx c).events = s.events := rfl

@[simp] theorem State.log_cfg (s : State) (e : Event) : (s.log e).cfg = s.cfg := rfl
@[simp] theorem State.log_contexts (s : State) (e : Event) : (s.log e).contexts = s.contexts := rfl
@[simp] theorem State.log_pending (s : State) (e : Event) : (s.log e).pending = s.pending := rfl
@[simp] theorem State.log_events (s : State) (e : Event) : (s.log e).events = s.events ++ [e] := rfl

@[simp] theorem present_cfg (s : State) (call : Call) : (present s call).cfg = s.cfg := rfl
@[simp] theorem present_contexts (s : State) (call : Call) : (present s call).contexts = s.contexts := rfl
@[simp] theorem present_pending (s : State) (call : Call) : (present s call).pending = call :: s.pending := rfl
@[simp] theorem present_events (s : State) (call : Call) : (present s call).events = s.events := rfl

@[simp] theorem Context.setEscape_escapeActive (c : Context) : c.setEscape.escapeActive = true := rfl
@[simp] theorem Context.setEscape_position (c : Context) : c.setEscape.position = c.position := rfl
@[simp] theorem Context.setEscape_checksum (c : Context) : c.setEscape.checksum = c.checksum := rfl
@[simp] theorem Context.setEscape_buffer (c : Context) : c.setEscape.buffer = c.buffer := rfl

@[simp] theorem Context.clearEscape_escapeActive (c : Context) : c.clearEscape.escapeActive = false := rfl
@[simp] theorem Context.clearEscape_position (c : Context) : c.clearEscape.position = c.position := rfl
@[simp] theorem Context.clearEscape_checksum (c : Context) : c.clearEscape.checksum = c.checksum := rfl
@[simp] theorem Context.clearEscape_buffer (c : Context) : c.clearEscape.buffer = c.buffer := rfl

@[simp] theorem Context.restart_escapeActive (c : Context) : c.restart.escapeActive = c.escapeActive := rfl
@[simp] theorem Context.restart_position (c : Context) : c.restart.position = 0 := rfl
@[simp] theorem Context.restart_checksum (c : Context) : c.restart.checksum = crcInit := rfl
@[simp] theorem Context.restart_buffer (c : Context) : c.restart.buffer = c.buffer := rfl

@[simp] theorem Context.reinit_escapeActive (c : Context) : c.reinit.escapeActive = false := rfl
@[simp] theorem Context.reinit_position (c : Context) : c.reinit.position = 0 := rfl
@[simp] theorem Context.reinit_checksum (c : Context) : c.reinit.checksum = crcInit := rfl
@[simp] theorem Context.reinit_buffer (c : Context) : c.reinit.buffer = c.buffer := rfl

@[simp] theorem Context.escapedBoundary_escapeActive (p : EscFlagPolicy) (c : Context) :
    (c.escapedBoundary p).escapeActive = false := by cases p <;> rfl
@[simp] theorem Context.escapedBoundary_buffer (p : EscFlagPolicy) (c : Context) :
    (c.escapedBoundary p).buffer = c.buffer := by cases p <;> rfl

/-- A constructed context is an entry of the list of contexts. -/
theorem State.context?_eq_some {s : State} {ctx : Nat} {c : Context} :
    s.context? ctx = some c ↔ s.contexts[ctx]? = some (some c) := by
  unfold State.context?
  split <;> simp_all

/-- A state's look-up of contexts sees its list of contexts only. -/
theorem State.context?_congr {s s' : State} {ctx : Nat} (h : s.contexts[ctx]? = s'.contexts[ctx]?) :
    s.context? ctx = s'.context? ctx := by
  unfold State.context?
  rw [h]

@[simp] theorem State.log_context? (s : State) (e : Event) (ctx : Nat) : (s.log e).context? ctx = s.context? ctx := rfl

@[simp] theorem present_context? (s : State) (call : Call) (ctx : Nat) :
    (present s call).context? ctx = s.context? ctx := rfl

/-- The context just replaced, where the block has it. -/
theorem State.setContext_context?_self {s : State} {ctx : Nat} {c : Context} (h : ctx < s.contexts.length) :
    (s.setContext ctx c).context? ctx = some c := by
  rw [State.context?_eq_some]
  simp [h]

/-- Every other context is left alone (20_memory.md R41). -/
theorem State.setContext_context?_ne {s : State} {ctx k : Nat} {c : Context} (h : k ≠ ctx) :
    (s.setContext ctx c).context? k = s.context? k := by
  apply State.context?_congr
  simp [Ne.symm h]

/-- A context that can be looked up is one the block has. -/
theorem State.context?_lt {s : State} {ctx : Nat} {c : Context} (h : s.context? ctx = some c) :
    ctx < s.contexts.length := by
  rw [State.context?_eq_some] at h
  exact (List.getElem?_eq_some_iff.mp h).1

end Sys2Proof.Machine
end

