-- ==== Sys2Proof/Laws/Memory.lean ====
section
/-! SUPPORT. The receive buffer: read after write, the canonical form, and when a read or a write faults. -/

namespace Sys2Proof.Machine

/-- A read after a write gives the octet written at that index and what was there at every other. -/
@[simp] theorem Memory.read_write (m : Memory) (i j : Nat) (v : Octet) :
    Memory.read (Memory.write m i v) j = if i = j then some v else Memory.read m j := by
  induction m with
  | nil => simp [Memory.write, Memory.read]
  | cons x rest ih =>
    obtain ⟨a, w⟩ := x
    unfold Memory.write
    split
    · simp [Memory.read]
    · split
      · subst_vars; by_cases h : a = j <;> simp [Memory.read, h]
      · by_cases h : a = j
        · subst h; simp [Memory.read]; omega
        · simp [Memory.read, h, ih]

/-- The cells of a written memory are the one written and cells that were there. -/
theorem Memory.mem_write {m : Memory} {i : Nat} {v : Octet} {x : Host.Cell} (h : x ∈ Memory.write m i v) :
    x = (i, v) ∨ x ∈ m := by
  induction m with
  | nil => simpa [Memory.write] using h
  | cons y rest ih =>
    obtain ⟨a, w⟩ := y
    unfold Memory.write at h
    split at h
    · simpa using h
    · split at h
      · rcases List.mem_cons.mp h with h | h
        · exact .inl h
        · exact .inr (List.mem_cons_of_mem _ h)
      · rcases List.mem_cons.mp h with h | h
        · exact .inr (h ▸ List.mem_cons_self)
        · exact (ih h).imp_right (List.mem_cons_of_mem _)

/-- A write keeps the canonical form. -/
theorem Memory.wf_write {m : Memory} (h : Memory.wf m) (i : Nat) (v : Octet) : Memory.wf (Memory.write m i v) := by
  induction m with
  | nil => simp [Memory.write, Memory.wf]
  | cons y rest ih =>
    obtain ⟨a, w⟩ := y
    obtain ⟨hhead, htail⟩ := List.pairwise_cons.mp h
    unfold Memory.write
    split
    · rename_i hlt
      refine List.pairwise_cons.mpr ⟨fun x hx => ?_, h⟩
      rcases List.mem_cons.mp hx with rfl | hx
      · exact hlt
      · exact Nat.lt_trans hlt (hhead x hx)
    · split
      · subst_vars; exact List.pairwise_cons.mpr ⟨hhead, htail⟩
      · refine List.pairwise_cons.mpr ⟨fun x hx => ?_, ih htail⟩
        rcases Memory.mem_write hx with rfl | hx
        · simp; omega
        · exact hhead x hx

/-- The memory at reset is in canonical form. -/
theorem Memory.wf_nil : Memory.wf [] := List.Pairwise.nil

/-- When a read answers: the index is below `position`, inside the buffer, and holds the octet. -/
theorem memRead_eq_ok {cfg : Config} {c : Context} {i : Nat} {v : Octet} :
    memRead cfg c i = .ok v ↔ i < cfg.maxFrameLength ∧ i < c.position ∧ Memory.read c.buffer i = some v := by
  unfold memRead
  split
  · simp; omega
  · split
    · simp; omega
    · have h : i < cfg.maxFrameLength ∧ i < c.position := by omega
      cases Memory.read c.buffer i <;> simp [h]

/-- When a write answers, and what it leaves. -/
theorem memWrite_eq_ok {cfg : Config} {c c' : Context} {i : Nat} {v : Octet} :
    memWrite cfg c i v = .ok c' ↔
      i < cfg.maxFrameLength ∧ c' = { c with buffer := Memory.write c.buffer i v } := by
  unfold memWrite
  split
  · simp; omega
  · simp only [Except.ok.injEq, Nat.not_le] at *
    exact ⟨fun h => ⟨‹_›, h.symm⟩, fun h => h.2.symm⟩

/-- When the octets `buffer[0 .. n)` can be read, and what they are. -/
theorem memReadPrefix_eq_ok {cfg : Config} {c : Context} {n : Nat} {xs : List Octet} :
    memReadPrefix cfg c n = .ok xs ↔
      xs.length = n ∧ ∀ k, k < n → ∃ v, memRead cfg c k = .ok v ∧ xs[k]? = some v := by
  induction n generalizing xs with
  | zero => cases xs <;> simp [memReadPrefix]
  | succ n ih =>
    unfold memReadPrefix
    cases h : memReadPrefix cfg c n with
    | error f =>
      simp only [reduceCtorEq, false_iff, not_and]
      intro hlen hall
      have : memReadPrefix cfg c n = .ok (xs.take n) := ih.mpr
        ⟨by simp [hlen], fun k hk => by
          obtain ⟨v, hv, hx⟩ := hall k (by omega)
          exact ⟨v, hv, by simpa [List.getElem?_take, hk] using hx⟩⟩
      simp [this] at h
    | ok ys =>
      obtain ⟨hlen, hall⟩ := ih.mp h
      cases hr : memRead cfg c n with
      | error f =>
        simp only [reduceCtorEq, false_iff, not_and]
        intro _ hall'
        obtain ⟨v, hv, _⟩ := hall' n (by omega)
        simp [hv] at hr
      | ok v =>
        simp only [Except.ok.injEq]
        constructor
        · rintro rfl
          refine ⟨by simp [hlen], fun k hk => ?_⟩
          rcases Nat.lt_succ_iff_lt_or_eq.mp hk with hk | rfl
          · obtain ⟨w, hw, hx⟩ := hall k hk
            exact ⟨w, hw, by rw [List.getElem?_append_left (by omega)]; exact hx⟩
          · exact ⟨v, hr, by rw [List.getElem?_append_right (by omega)]; simp [hlen]⟩
        · rintro ⟨hlen', hall'⟩
          apply List.ext_getElem?
          intro k
          by_cases hk : k < n
          · obtain ⟨w, hw, hx⟩ := hall k hk
            obtain ⟨w', hw', hx'⟩ := hall' k (by omega)
            rw [hw] at hw'
            cases hw'
            rw [List.getElem?_append_left (by omega), hx, hx']
          · by_cases hkn : k = n
            · subst hkn
              obtain ⟨w', hw', hx'⟩ := hall' k (by omega)
              rw [hr] at hw'
              cases hw'
              rw [List.getElem?_append_right (by omega), hx']; simp [hlen]
            · rw [List.getElem?_eq_none (by simp; omega), List.getElem?_eq_none (by omega)]

end Sys2Proof.Machine
end

