-- ==== Sys2Proof/Laws/Ops.lean ====
section
/-! SUPPORT. One lemma per shared operation that says once everything it can do, and the inversion of `exec`: what a
next state of any operation is. -/

namespace Sys2Proof.Machine

/-- What `rxBegin` leads to when it answers a next state. -/
theorem rxBegin_next {ctx : Nat} {row : RxCase} {b : Octet} {s t : State}
    {body : Context → Host.Outcome State Fault Refusal} (h : rxBegin ctx row b s body = .next t) :
    ∃ c, s.context? ctx = some c ∧ rxCase c.escapeActive b = row ∧ body c = .next t := by
  unfold rxBegin at h
  split at h
  · cases h
  · split at h
    · exact ⟨_, ‹_›, ‹_›, h⟩
    · cases h

/-- `rxBegin` on a constructed context whose flag and octet select the row. -/
theorem rxBegin_of {ctx : Nat} {row : RxCase} {b : Octet} {s : State} {c : Context}
    (hc : s.context? ctx = some c) (hr : rxCase c.escapeActive b = row)
    (body : Context → Host.Outcome State Fault Refusal) : rxBegin ctx row b s body = body c := by
  simp [rxBegin, hc, hr]

/-- What the test at a boundary answers (42_receiver.md R98, R99). -/
theorem boundary_eq_ok {cfg : Config} {c : Context} {f : Option (List Octet)} {st : RxStatus}
    (h : boundary cfg c = .ok (f, st)) :
    (c.position = 0 ∧ f = none ∧ st = .none) ∨
    (c.position = 1 ∧ f = none ∧ st = .runt) ∨
    (2 ≤ c.position ∧ ∃ lo hi, memRead cfg c (c.position - 2) = .ok lo ∧ memRead cfg c (c.position - 1) = .ok hi ∧
      ((c.checksum = fcsOf lo hi ∧ st = .frameOk ∧
          ∃ payload, f = some payload ∧ memReadPrefix cfg c (c.position - 2) = .ok payload) ∨
        (c.checksum ≠ fcsOf lo hi ∧ f = none ∧ st = .checksumMismatch))) := by
  unfold boundary at h
  split at h
  · rename_i h2
    refine .inr (.inr ⟨h2, ?_⟩)
    split at h
    · rename_i lo hi hlo hhi
      refine ⟨lo, hi, hlo, hhi, ?_⟩
      split at h
      · split at h
        · cases h
          exact .inl ⟨‹_›, rfl, _, rfl, ‹_›⟩
        · cases h
      · cases h
        exact .inr ⟨‹_›, rfl, rfl⟩
    · cases h
    · cases h
  · split at h
    · cases h; exact .inr (.inl ⟨‹_›, rfl, rfl⟩)
    · cases h; exact .inl ⟨by omega, rfl, rfl⟩

/-- What the fold of a data case leaves (42_receiver.md R105). -/
theorem foldChecksum_eq_ok {cfg : Config} {c c' : Context} (h : foldChecksum cfg c = .ok c') :
    (c.position < 2 ∧ c' = c) ∨
    (2 ≤ c.position ∧ ∃ x, memRead cfg c (c.position - 2) = .ok x ∧
      c' = { c with checksum := crcStep c.checksum x }) := by
  unfold foldChecksum at h
  split at h
  · split at h
    · cases h; exact .inr ⟨‹_›, _, ‹_›, rfl⟩
    · cases h
  · cases h; exact .inl ⟨by omega, rfl⟩

/-- What the increment and the overflow guard leave (42_receiver.md R105, R106). -/
theorem advance_eq (cfg : Config) (c : Context) :
    advance cfg c =
      if c.position + 1 = cfg.maxFrameLength then
        ({ c with position := 0, checksum := crcInit }, .frameTooLarge)
      else ({ c with position := c.position + 1 }, .none) := rfl

/-- The checksum a data case leaves before the guard: folded from the third stored octet on (42_receiver.md R105). -/
def foldedBy (c : Context) (x : Octet) : Word := if 2 ≤ c.position then crcStep c.checksum x else c.checksum

/-- Everything a data case can leave (42_receiver.md R105, R106). -/
theorem storeData_eq_ok {cfg : Config} {c c' : Context} {v : Octet} {st : RxStatus}
    (h : storeData cfg c v = .ok (c', st)) :
    c.position < cfg.maxFrameLength ∧ c'.escapeActive = c.escapeActive ∧
    c'.buffer = Memory.write c.buffer c.position v ∧
    ((c.position + 1 = cfg.maxFrameLength ∧ c'.position = 0 ∧ c'.checksum = crcInit ∧ st = .frameTooLarge) ∨
     (c.position + 1 ≠ cfg.maxFrameLength ∧ c'.position = c.position + 1 ∧ st = .none ∧
      ∃ x, (2 ≤ c.position → Memory.read c.buffer (c.position - 2) = some x) ∧ c'.checksum = foldedBy c x)) := by
  unfold storeData at h
  split at h
  · cases h
  · rename_i c1 hw
    obtain ⟨hlt, rfl⟩ := memWrite_eq_ok.mp hw
    split at h
    · cases h
    · rename_i c2 hf
      rw [advance_eq] at h
      rcases foldChecksum_eq_ok hf with ⟨hp, rfl⟩ | ⟨hp, x, hx, rfl⟩
      · simp only [Except.ok.injEq] at h
        split at h <;> cases h
        · exact ⟨hlt, rfl, rfl, .inl ⟨‹_›, rfl, rfl, rfl⟩⟩
        · refine ⟨hlt, rfl, rfl, .inr ⟨‹_›, rfl, rfl, 0, ?_, ?_⟩⟩
          · intro h2; simp at hp; omega
          · simp only [foldedBy] ; rw [if_neg (by simpa using hp)]
      · rw [memRead_eq_ok] at hx
        simp only [Memory.read_write] at hx
        simp only at hp
        have hx' : Memory.read c.buffer (c.position - 2) = some x := by
          have := hx.2.2
          rwa [if_neg (by omega)] at this
        simp only [Except.ok.injEq] at h
        split at h <;> cases h
        · exact ⟨hlt, rfl, rfl, .inl ⟨‹_›, rfl, rfl, rfl⟩⟩
        · exact ⟨hlt, rfl, rfl, .inr ⟨‹_›, rfl, rfl, x, fun _ => hx', by simp [foldedBy, hp]⟩⟩

/-- A data case completes when the cursor is inside the buffer and, from the third octet on, the octet two behind it is
stored (42_receiver.md R105). -/
theorem storeData_of {cfg : Config} {c : Context} {v x : Octet} (hlt : c.position < cfg.maxFrameLength)
    (hx : 2 ≤ c.position → Memory.read c.buffer (c.position - 2) = some x) :
    storeData cfg c v =
      .ok (advance cfg { c with buffer := Memory.write c.buffer c.position v, checksum := foldedBy c x }) := by
  have hw : memWrite cfg c c.position v = .ok { c with buffer := Memory.write c.buffer c.position v } :=
    memWrite_eq_ok.mpr ⟨hlt, rfl⟩
  unfold storeData
  rw [hw]
  unfold foldChecksum foldedBy
  by_cases hp : 2 ≤ c.position
  · have hr : memRead cfg { c with buffer := Memory.write c.buffer c.position v } (c.position - 2) = .ok x := by
      rw [memRead_eq_ok]
      refine ⟨by omega, ?_, ?_⟩
      · show c.position - 2 < c.position; omega
      · rw [Memory.read_write, if_neg (by omega)]; exact hx hp
    simp [hp, hr]
  · simp [hp]

/-- What an `RX_OCTET` leaves when it ends: one context replaced, one entry logged. -/
theorem rxEnd_next {ctx : Nat} {c : Context} {f : Option (List Octet)} {st : RxStatus} {s t : State}
    (h : rxEnd ctx c f st s = .next t) : t = (s.setContext ctx c).log (.rx ctx f st) := by
  unfold rxEnd at h
  cases h
  rfl

/-- What a data case leads to when it answers a next state. -/
theorem rxStore_next {ctx : Nat} {c : Context} {v : Octet} {s t : State} (h : rxStore ctx c v s = .next t) :
    ∃ c' st, storeData s.cfg c v = .ok (c', st) ∧ t = (s.setContext ctx c').log (.rx ctx none st) := by
  unfold rxStore at h
  split at h
  · cases h
  · exact ⟨_, _, ‹_›, rxEnd_next h⟩

/-- The update an operation of the receiver makes to a context: the row, the context before, the context after, the
`frame_out` and the `rx_status`. -/
inductive RxEffect (cfg : Config) (ctx : Nat) : Instr → Context → Context → Option (List Octet) → RxStatus → Prop where
  | flag {c : Context} {f : Option (List Octet)} {st : RxStatus} (he : c.escapeActive = false)
      (h : boundary cfg c = .ok (f, st)) : RxEffect cfg ctx (.rxFlag ctx) c c.reinit f st
  | flagEsc {c : Context} (he : c.escapeActive = true) :
      RxEffect cfg ctx (.rxFlagEsc ctx) c (c.escapedBoundary cfg.escFlagPolicy) none .escapedBoundary
  | esc {c : Context} (he : c.escapeActive = false) : RxEffect cfg ctx (.rxEsc ctx) c c.setEscape none .none
  | dataEsc {c c' : Context} {b : Octet} {st : RxStatus} (he : c.escapeActive = true) (hb : b ≠ flagOctet)
      (h : storeData cfg c.clearEscape (unescape b) = .ok (c', st)) :
      RxEffect cfg ctx (.rxDataEsc ctx b) c c' none st
  | data {c c' : Context} {b : Octet} {st : RxStatus} (he : c.escapeActive = false) (hf : b ≠ flagOctet)
      (hb : b ≠ escOctet) (h : storeData cfg c b = .ok (c', st)) : RxEffect cfg ctx (.rxData ctx b) c c' none st

/-- The stateless operations: what a next state of each is. -/
inductive StatelessEffect (cfg : Config) : Instr → Event → Prop where
  | crc (crc : Word) (b : Octet) : StatelessEffect cfg (.crcUpdate crc b) (.crc (crcStep crc b))
  | lit (b : Octet) (h : stuffCase b = .lit) : StatelessEffect cfg (.stuffLit b) (.stuffed (stuff b))
  | esc7D : StatelessEffect cfg .stuffEsc7D (.stuffed (stuff escOctet))
  | esc7E : StatelessEffect cfg .stuffEsc7E (.stuffed (stuff flagOctet))
  | tooLong (sink : Nat) (p : List Octet) (hr : cfg.txLengthCheck = .reject) (hl : cfg.maxFrameLength < p.length) :
      StatelessEffect cfg (.sendFrame sink p) (.tx sink [] (.payloadTooLarge p.length))
  | sent (sink : Nat) (p : List Octet) (h : ¬(cfg.txLengthCheck = .reject ∧ cfg.maxFrameLength < p.length)) :
      StatelessEffect cfg (.sendFrame sink p) (.tx sink (frameOctets p) .ok)

/-- Everything an operation can do when it answers a next state: a stateless operation logs its output; `RX_INIT`
puts one context in its reset state; a case of `RX_OCTET` replaces the one context it names. -/
theorem exec_next {i : Instr} {s t : State} (h : exec i s = .next t) :
    (∃ e, StatelessEffect s.cfg i e ∧ t = s.log e) ∨
    (∃ ctx c, i = .rxInit ctx ∧ s.cfg.Legal ∧
      ((s.contexts[ctx]? = some none ∧ c = Context.fresh) ∨ ∃ c0, s.context? ctx = some c0 ∧ c = c0.reinit) ∧
      t = (s.setContext ctx c).log (.rxInit ctx)) ∨
    (∃ ctx c c' f st, s.context? ctx = some c ∧ RxEffect s.cfg ctx i c c' f st ∧
      t = (s.setContext ctx c').log (.rx ctx f st)) := by
  cases i with
  | crcUpdate crc b => cases h; exact .inl ⟨_, .crc crc b, rfl⟩
  | stuffLit b =>
    simp only [exec, execStuffLit, stuffEnd] at h
    split at h
    · cases h; exact .inl ⟨_, .lit b ‹_›, rfl⟩
    · cases h
  | stuffEsc7D => cases h; exact .inl ⟨_, .esc7D, rfl⟩
  | stuffEsc7E => cases h; exact .inl ⟨_, .esc7E, rfl⟩
  | sendFrame sink p =>
    simp only [exec, execSendFrame] at h
    split at h
    · cases h
      rename_i hc
      exact .inl ⟨_, .tooLong sink p hc.1 hc.2, rfl⟩
    · cases h; exact .inl ⟨_, .sent sink p ‹_›, rfl⟩
  | rxInit ctx =>
    simp only [exec, execRxInit] at h
    split at h
    · split at h
      · cases h
      · cases h; exact .inr (.inl ⟨ctx, _, rfl, ‹_›, .inl ⟨‹_›, rfl⟩, rfl⟩)
      · cases h; exact .inr (.inl ⟨ctx, _, rfl, ‹_›, .inr ⟨_, State.context?_eq_some.mpr ‹_›, rfl⟩, rfl⟩)
    · cases h
  | rxFlag ctx =>
    obtain ⟨c, hc, hr, hb⟩ := rxBegin_next h
    split at hb
    · cases hb
    · exact .inr (.inr ⟨ctx, c, _, _, _, hc, .flag (rxCase_eq_flag.mp hr).1 ‹_›, rxEnd_next hb⟩)
  | rxFlagEsc ctx =>
    obtain ⟨c, hc, hr, hb⟩ := rxBegin_next h
    exact .inr (.inr ⟨ctx, c, _, _, _, hc, .flagEsc (rxCase_eq_flagEsc.mp hr).1, rxEnd_next hb⟩)
  | rxEsc ctx =>
    obtain ⟨c, hc, hr, hb⟩ := rxBegin_next h
    exact .inr (.inr ⟨ctx, c, _, _, _, hc, .esc (rxCase_eq_esc.mp hr).1, rxEnd_next hb⟩)
  | rxDataEsc ctx b =>
    obtain ⟨c, hc, hr, hb⟩ := rxBegin_next h
    obtain ⟨c', st, hs, ht⟩ := rxStore_next hb
    obtain ⟨he, hf⟩ := rxCase_eq_dataEsc.mp hr
    exact .inr (.inr ⟨ctx, c, c', none, st, hc, .dataEsc he hf hs, ht⟩)
  | rxData ctx b =>
    obtain ⟨c, hc, hr, hb⟩ := rxBegin_next h
    obtain ⟨c', st, hs, ht⟩ := rxStore_next hb
    obtain ⟨he, hf, hb'⟩ := rxCase_eq_data.mp hr
    exact .inr (.inr ⟨ctx, c, c', none, st, hc, .data he hf hb' hs, ht⟩)

/-- The converse, for a case of `RX_OCTET`: an effect the rules allow is the one the operation has. -/
theorem exec_of_rxEffect {i : Instr} {s : State} {ctx : Nat} {c c' : Context} {f : Option (List Octet)} {st : RxStatus}
    (hc : s.context? ctx = some c) (h : RxEffect s.cfg ctx i c c' f st) :
    exec i s = .next ((s.setContext ctx c').log (.rx ctx f st)) := by
  cases h with
  | flag he hb => simp only [exec, execRxFlag]; rw [rxBegin_of hc (rxCase_eq_flag.mpr ⟨he, rfl⟩), hb]; rfl
  | flagEsc he => simp only [exec, execRxFlagEsc]; rw [rxBegin_of hc (rxCase_eq_flagEsc.mpr ⟨he, rfl⟩)]; rfl
  | esc he => simp only [exec, execRxEsc]; rw [rxBegin_of hc (rxCase_eq_esc.mpr ⟨he, rfl⟩)]; rfl
  | dataEsc he hf hs =>
    simp only [exec, execRxDataEsc]
    rw [rxBegin_of hc (rxCase_eq_dataEsc.mpr ⟨he, hf⟩), rxStore, hs]
    rfl
  | data he hf hb hs =>
    simp only [exec, execRxData]
    rw [rxBegin_of hc (rxCase_eq_data.mpr ⟨he, hf, hb⟩), rxStore, hs]
    rfl

/-- `exec_next` for a case of `RX_OCTET` at a constructed context. -/
theorem exec_rx_next {i : Instr} {s t : State} {ctx : Nat} {c : Context} (hp : i.port = .rxOctet ctx)
    (hc : s.context? ctx = some c) (h : exec i s = .next t) :
    ∃ c' f st, RxEffect s.cfg ctx i c c' f st ∧ t = (s.setContext ctx c').log (.rx ctx f st) := by
  rcases exec_next h with ⟨e, he, -⟩ | ⟨k, d, rfl, -⟩ | ⟨k, d, d', f, st, hd, he, ht⟩
  · cases he <;> simp [Instr.port] at hp
  · simp [Instr.port] at hp
  · have : k = ctx := by cases he <;> simpa [Instr.port] using hp
    subst this
    rw [hc] at hd
    cases hd
    exact ⟨_, _, _, he, ht⟩

/-- What a step does with nothing presented, and with a call presented. -/
theorem step_cases {s t : State} (h : step s = .next t) :
    (s.pending = [] ∧ t = s) ∨
    (∃ call rest i, s.pending = call :: rest ∧ conflict s call = none ∧
      decode call.port (escapeSeen s call.port) call.octets = .instr i ∧
      exec i { s with pending := rest } = .next t) := by
  unfold step fetch at h
  cases hp : s.pending with
  | nil => rw [hp] at h; cases h; exact .inl ⟨rfl, rfl⟩
  | cons call rest =>
    simp only [hp] at h
    cases hc : conflict s call with
    | some r => simp [hc] at h
    | none =>
      simp only [hc] at h
      cases hd : decode call.port (escapeSeen s call.port) call.octets with
      | rejected why => simp [hd] at h
      | instr i => simp only [hd] at h; exact .inr ⟨call, rest, i, rfl, hc, hd, h⟩

end Sys2Proof.Machine
end

