-- ==== Sys2Proof/Laws/PerInstr.lean ====
section
/-! SUPPORT. Facts about every instruction as syntax, one lemma per constructor. -/

namespace Sys2Proof.Laws.OctetCount

/-- How many operand octets an interface takes; `none` where any number will do (30_encoding.md section 7). -/
def taken : Interface → Option Nat
  | .crcUpdate => some 3
  | .stuff => some 1
  | .txFrame _ => none
  | .rxInit _ => some 0
  | .rxOctet _ => some 1

/-- The encoding of an instruction has the number of octets that its interface takes. -/
def Statement (i : Instr) : Prop := ∀ n, taken i.port = some n → (encode i).length = n

theorem crcUpdate (crc : Word) (b : Octet) : Statement (.crcUpdate crc b) := by simp [Statement, taken, Instr.port, encode]
theorem stuffLit (b : Octet) : Statement (.stuffLit b) := by simp [Statement, taken, Instr.port, encode]
theorem stuffEsc7D : Statement .stuffEsc7D := by simp [Statement, taken, Instr.port, encode]
theorem stuffEsc7E : Statement .stuffEsc7E := by simp [Statement, taken, Instr.port, encode]
theorem sendFrame (sink : Nat) (payload : List Octet) : Statement (.sendFrame sink payload) := by
  simp [Statement, taken, Instr.port]
theorem rxInit (ctx : Nat) : Statement (.rxInit ctx) := by simp [Statement, taken, Instr.port, encode]
theorem rxFlag (ctx : Nat) : Statement (.rxFlag ctx) := by simp [Statement, taken, Instr.port, encode]
theorem rxFlagEsc (ctx : Nat) : Statement (.rxFlagEsc ctx) := by simp [Statement, taken, Instr.port, encode]
theorem rxEsc (ctx : Nat) : Statement (.rxEsc ctx) := by simp [Statement, taken, Instr.port, encode]
theorem rxDataEsc (ctx : Nat) (b : Octet) : Statement (.rxDataEsc ctx b) := by
  simp [Statement, taken, Instr.port, encode]
theorem rxData (ctx : Nat) (b : Octet) : Statement (.rxData ctx b) := by simp [Statement, taken, Instr.port, encode]

end Sys2Proof.Laws.OctetCount
end

