-- ==== Sys2Proof/Tests/Slice0.lean ====
section
/-! SUPPORT. The model's own tests. Expected results come from the tables of spec/30_encoding.md and the vectors V of
spec/95_test_vectors.md; each `witness_` theorem shows that an obligation's hypotheses can be met together. -/

namespace Sys2Proof.Tests

open Sys2Proof Sys2Proof.Machine

/-! ## A small machine: two contexts, number 0 not constructed, number 1 as given -/

/-- Parameters of the small machine; two contexts. -/
def params (max : Nat) (policy : EscFlagPolicy) (check : TxLengthCheck) : Config :=
  { maxFrameLength := max, nContexts := 2, escFlagPolicy := policy, txLengthCheck := check }

/-- The vectors' standing parameters: `MAX_FRAME_LENGTH = 16`, `CANCEL_ONLY` (95 preamble). -/
def std : Config := params 16 .cancelOnly .reject

/-- A context by a vector's row: its flag, `buffer[0 .. position)` and `checksum`. -/
def row (esc : Bool) (held : List Octet) (checksum : Word) : Context :=
  { escapeActive := esc, position := held.length, checksum := checksum
    buffer := held.zipIdx.map (fun p => (p.2, p.1)) }

/-- The small machine. -/
def lab (cfg : Config) (c : Context) : State := { cfg := cfg, contexts := [none, some c], pending := [], events := [] }

/-- The small machine with calls presented. -/
def labWith (cfg : Config) (c : Context) (calls : List Call) : State := { lab cfg c with pending := calls }

/-- A serialised call. -/
def call (port : Interface) (octets : List Octet) : Call := { port := port, octets := octets, during := [] }

/-- Context 1 and the outputs of the operation. -/
def seen : Host.Outcome State Fault Refusal → Option (Option Context × Option Event)
  | .next t => some (t.context? 1, t.events.getLast?)
  | .fault _ => none
  | .refused _ => none

/-- What the operation put out. -/
def out : Host.Outcome State Fault Refusal → Option Event
  | .next t => t.events.getLast?
  | .fault _ => none
  | .refused _ => none

/-- The refusal, if it is one. -/
def refusal : Host.Outcome State Fault Refusal → Option Refusal
  | .next _ => none
  | .fault _ => none
  | .refused r => some r

/-! ## WellFormed: the octets each default row does not stand for (opcode_table.json "priority") -/

theorem test_wf_stuffLit_7D : (Instr.stuffLit 0x7D#8).wf = false := by decide
theorem test_wf_stuffLit_7E : (Instr.stuffLit 0x7E#8).wf = false := by decide
theorem test_wf_rxDataEsc_7E : (Instr.rxDataEsc 0 0x7E#8).wf = false := by decide
theorem test_wf_rxData_7D : (Instr.rxData 0 0x7D#8).wf = false := by decide
theorem test_wf_rxData_7E : (Instr.rxData 0 0x7E#8).wf = false := by decide

/-! ## Decode: words written out from 30_encoding.md R53 and R56 and opcode_table.json -/

theorem test_decode_rxFlag : decode (.rxOctet 1) false [0b01111110#8] = .instr (.rxFlag 1) := by decide
theorem test_decode_rxFlagEsc : decode (.rxOctet 1) true [0b01111110#8] = .instr (.rxFlagEsc 1) := by decide
theorem test_decode_rxEsc : decode (.rxOctet 1) false [0b01111101#8] = .instr (.rxEsc 1) := by decide
theorem test_decode_rxDataEsc :
    decode (.rxOctet 1) true [0b01011110#8] = .instr (.rxDataEsc 1 0b01011110#8) := by decide
theorem test_decode_rxDataEsc_esc :
    decode (.rxOctet 1) true [0b01111101#8] = .instr (.rxDataEsc 1 0b01111101#8) := by decide
theorem test_decode_rxData :
    decode (.rxOctet 1) false [0b01111100#8] = .instr (.rxData 1 0b01111100#8) := by decide
theorem test_decode_stuffLit : decode .stuff false [0b01111111#8] = .instr (.stuffLit 0b01111111#8) := by decide
theorem test_decode_stuffEsc7D : decode .stuff false [0b01111101#8] = .instr .stuffEsc7D := by decide
theorem test_decode_stuffEsc7E : decode .stuff false [0b01111110#8] = .instr .stuffEsc7E := by decide
theorem test_decode_crcUpdate :
    decode .crcUpdate false [0b01010110#8, 0b00110100#8, 0b00010010#8] =
      .instr (.crcUpdate 0b0001001000110100#16 0b01010110#8) := by decide
theorem test_decode_sendFrame :
    decode (.txFrame 3) false [0b00111010#8, 0b11110011#8] =
      .instr (.sendFrame 3 [0b00111010#8, 0b11110011#8]) := by decide
theorem test_decode_sendFrame_empty : decode (.txFrame 3) false [] = .instr (.sendFrame 3 []) := by decide
theorem test_decode_rxInit : decode (.rxInit 1) false [] = .instr (.rxInit 1) := by decide
theorem test_decode_rejects_empty_octet : decode (.rxOctet 1) false [] = .rejected .rxOctetOperandOctets := by decide
theorem test_decode_rejects_short_crc :
    decode .crcUpdate false [0x56#8, 0x34#8] = .rejected .crcOperandOctets := by decide

/-- 24 bits, `crc` in bits 23:8 and `b` in bits 7:0. -/
theorem test_table_crcUpdate :
    decodeTableWord 24 0b000100100011010001010110 = some (.crcUpdate 0x1234#16 0x56#8) := by decide
theorem test_table_flag : decodeTableWord 8 0b01111110 = some (.rxFlag 0) := by decide
theorem test_table_rxInit : decodeTableWord 0 0 = some (.rxInit 0) := by decide

/-- The next step after reset runs the operation of a table word. -/
theorem test_fetchWord_runs :
    out (step (State.reset.withFetchWord 8 0b01000001)) = some (.rx 0 none .none) := by decide
theorem test_fetchWord_crc :
    out (step (State.reset.withFetchWord 24 0b000100100011010001010110)) = some (.crc 0x4006#16) := by decide

/-! ## One operation each -/

/-- V2.1, row (FFFF, 69). -/
theorem test_crcUpdate_first_step :
    out (exec (.crcUpdate 0xFFFF#16 0x69#8) (lab std Context.fresh)) = some (.crc 0xF140#16) := by decide
/-- V2.1, row (0000, 80). -/
theorem test_crcUpdate_feedback :
    out (exec (.crcUpdate 0x0000#16 0x80#8) (lab std Context.fresh)) = some (.crc 0x8408#16) := by decide
/-- V3.1. -/
theorem test_stuffLit : out (exec (.stuffLit 0x5D#8) (lab std Context.fresh)) = some (.stuffed [0x5D#8]) := by decide
/-- V3.1. -/
theorem test_stuffEsc7D : out (exec .stuffEsc7D (lab std Context.fresh)) = some (.stuffed [0x7D#8, 0x5D#8]) := by decide
/-- V3.1. -/
theorem test_stuffEsc7E : out (exec .stuffEsc7E (lab std Context.fresh)) = some (.stuffed [0x7D#8, 0x5E#8]) := by decide
/-- V3.2.9: the payload octet and the FCS low octet are escaped. -/
theorem test_sendFrame :
    out (exec (.sendFrame 3 [0x7E#8]) (lab std Context.fresh)) =
      some (.tx 3 [0x7E#8, 0x7D#8, 0x5E#8, 0x7D#8, 0x5E#8, 0x95#8, 0x7E#8] .ok) := by decide
/-- V3.3: nine octets, `MAX_FRAME_LENGTH = 8`. -/
theorem test_sendFrame_rejected :
    out (exec (.sendFrame 3 (List.replicate 9 0x31#8)) (lab (params 8 .cancelOnly .reject) Context.fresh)) =
      some (.tx 3 [] (.payloadTooLarge 9)) := by decide
/-- 42_receiver.md R96: a live context keeps its buffer. -/
theorem test_rxInit_live :
    seen (exec (.rxInit 1) (lab std (row true [0x41#8] 0x1234#16))) =
      some (some { row false [0x41#8] 0xFFFF#16 with position := 0 }, some (.rxInit 1)) := by decide
/-- 42_receiver.md R96: construction. -/
theorem test_rxInit_constructs :
    (match exec (.rxInit 0) (lab std Context.fresh) with
      | .next t => (t.context? 0).map (fun c => (c.escapeActive, c.position, c.checksum))
      | .fault _ => none
      | .refused _ => none) = some (false, 0, 0xFFFF#16) := by decide
/-- V4.4, row 8. -/
theorem test_rxFlag_delivers :
    (seen (exec (.rxFlag 1) (lab std (row false [0x3A#8, 0xF3#8, 0x7E#8, 0x7E#8] 0x7E7E#16)))).map
      (fun p => (p.1.map (fun c => (c.escapeActive, c.position, c.checksum)), p.2)) =
      some (some (false, 0, 0xFFFF#16), some (.rx 1 (some [0x3A#8, 0xF3#8]) .frameOk)) := by decide
/-- V4.7, row 4. -/
theorem test_rxFlag_mismatch :
    out (exec (.rxFlag 1) (lab std (row false [0x01#8, 0x02#8, 0x03#8] 0x1E0E#16))) =
      some (.rx 1 none .checksumMismatch) := by decide
/-- V4.14, row 4. -/
theorem test_rxFlagEsc_cancels :
    seen (exec (.rxFlagEsc 1) (lab std (row true [0x41#8] 0xFFFF#16))) =
      some (some (row false [0x41#8] 0xFFFF#16), some (.rx 1 none .escapedBoundary)) := by decide
/-- V4.15, row 4. -/
theorem test_rxFlagEsc_aborts :
    (seen (exec (.rxFlagEsc 1) (lab (params 16 .abortReset .reject) (row true [0x41#8] 0xFFFF#16)))).map
      (fun p => (p.1.map (fun c => (c.escapeActive, c.position, c.checksum)), p.2)) =
      some (some (false, 0, 0xFFFF#16), some (.rx 1 none .escapedBoundary)) := by decide
/-- V4.3, row 4. -/
theorem test_rxEsc :
    seen (exec (.rxEsc 1) (lab std (row false [0x7D#8] 0xFFFF#16))) =
      some (some (row true [0x7D#8] 0xFFFF#16), some (.rx 1 none .none)) := by decide
/-- V4.4, row 5: the octet is inverted and the first octet enters the checksum. -/
theorem test_rxDataEsc_folds :
    seen (exec (.rxDataEsc 1 0x5E#8) (lab std (row true [0x3A#8, 0xF3#8] 0xFFFF#16))) =
      some (some (row false [0x3A#8, 0xF3#8, 0x7E#8] 0x915E#16), some (.rx 1 none .none)) := by decide
/-- V4.5, row 5: an escape octet after an escape is data. -/
theorem test_rxDataEsc_of_esc :
    seen (exec (.rxDataEsc 1 0x7D#8) (lab std (row true [0x61#8] 0xFFFF#16))) =
      some (some (row false [0x61#8, 0x5D#8] 0xFFFF#16), some (.rx 1 none .none)) := by decide
/-- V4.3, row 7. -/
theorem test_rxData_folds :
    seen (exec (.rxData 1 0x2A#8) (lab std (row false [0x7D#8, 0x7E#8, 0xFD#8] 0xA7E5#16))) =
      some (some (row false [0x7D#8, 0x7E#8, 0xFD#8, 0x2A#8] 0x2AFD#16), some (.rx 1 none .none)) := by decide
/-- V4.11, row 7: the octet that fills the buffer. -/
theorem test_rxData_overflows :
    (seen (exec (.rxData 1 0x0F#8) (lab (params 3 .cancelOnly .reject) (row false [0x00#8, 0x87#8] 0xFFFF#16)))).map
      (fun p => (p.1.map (fun c => (c.escapeActive, c.position, c.checksum)), p.2)) =
      some (some (false, 0, 0xFFFF#16), some (.rx 1 none .frameTooLarge)) := by decide
/-- 20_memory.md R33: an index at `position` has no defined read. -/
theorem test_memRead_above_position :
    memRead std { row false [0x41#8, 0x42#8] 0xFFFF#16 with position := 1 } 1 = .error (.unwrittenOctet 1) := rfl

/-! ## Witnesses: concrete states and operands that meet the hypotheses of the obligations -/

/-- A frame of one octet, `41`, complete but for its closing boundary (V4.2, row 4). -/
def full : Context := row false [0x41#8, 0x0A#8, 0x5C#8] 0x5C0A#16

theorem row_inv_full : full.Inv std where
  positionInside := by decide
  bufferSound := ⟨by decide, by decide⟩
  checksumTrails := ⟨[0x41#8, 0x0A#8, 0x5C#8], ⟨rfl, by decide⟩, by decide⟩

theorem row_inv_empty (cfg : Config) (h : cfg.Legal) : (row false [] 0xFFFF#16).Inv cfg where
  positionInside := Nat.lt_of_lt_of_le (by decide) h.1
  bufferSound := ⟨List.Pairwise.nil, fun _ hc => by cases hc⟩
  checksumTrails := ⟨[], ⟨rfl, fun _ hk => by cases hk⟩, rfl⟩

theorem row_inv_escaping : (row true [0x41#8] 0xFFFF#16).Inv std where
  positionInside := by decide
  bufferSound := ⟨by decide, by decide⟩
  checksumTrails := ⟨[0x41#8], ⟨rfl, by decide⟩, by decide⟩

theorem lab_inv {cfg : Config} {c : Context} {calls : List Call} (hl : cfg.Legal) (hn : cfg.nContexts = 2)
    (hc : c.Inv cfg) : (labWith cfg c calls).Inv where
  legal := hl
  contextCount := hn.symm
  contextsSound := by
    intro ctx d h
    match ctx, h with
    | 0, h => cases h
    | 1, h => cases h; exact hc
    | k + 2, h => cases h

/-- `DecodeOfEncodeIsIdentity`: the octets next to the excluded ones. -/
theorem witness_wf :
    (Instr.stuffLit 0x7C#8).wf = true ∧ (Instr.stuffLit 0x7F#8).wf = true ∧ (Instr.rxDataEsc 1 0x7D#8).wf = true ∧
    (Instr.rxDataEsc 1 0x7F#8).wf = true ∧ (Instr.rxData 1 0x7C#8).wf = true ∧ (Instr.rxData 1 0x7F#8).wf = true := by
  decide

/-- `EncodeOfDecodeIsIdentity`, with the octet of an escaping context. -/
theorem witness_decodes : decode (.rxOctet 1) true [0x7D#8] = .instr (.rxDataEsc 1 0x7D#8) := by decide

/-- `WrongOperandCountIsRejected`: one octet too few and one too many. -/
theorem witness_operandCount :
    [0x01#8, 0x02#8].length ≠ 3 ∧ ([] : List Octet).length ≠ 1 ∧ [0x01#8, 0x02#8].length ≠ 1 ∧
    [0x01#8].length ≠ 0 := by decide

/-- `DecodingDependsOnFlagsOnly`: two states that differ in a buffer. -/
theorem witness_decodingDependsOnFlagsOnly :
    ∃ s s' : State, s ≠ s' ∧ s'.pending = s.pending ∧ s'.events = s.events ∧
      (∀ ctx, (s'.context? ctx).map (fun c => c.escapeActive) = (s.context? ctx).map (fun c => c.escapeActive)) ∧
      ∃ t, fetch s = .run (.rxData 1 0x41#8) t := by
  refine ⟨labWith std full [call (.rxOctet 1) [0x41#8]],
    labWith std (row false [0x55#8] 0xFFFF#16) [call (.rxOctet 1) [0x41#8]], by decide, rfl, rfl, ?_, _, rfl⟩
  intro ctx
  match ctx with
  | 0 => rfl
  | 1 => rfl
  | _ + 2 => rfl

/-- `StepPerformsNextCall`. -/
theorem witness_stepPerformsNextCall :
    ∃ (s : State) (c : Call) (rest : List Call), s.pending = c :: rest ∧ conflict s c = none ∧
      decode c.port (escapeSeen s c.port) c.octets = .instr (.rxDataEsc 1 0x7D#8) :=
  ⟨labWith std (row true [] 0xFFFF#16) [call (.rxOctet 1) [0x7D#8]], _, _, rfl, rfl, rfl⟩

/-- `IdleStepKeepsState`. -/
theorem witness_idle : (lab std full).pending = [] := rfl

/-- `RxOctetRunsOneCase`, on an escaping context and on one that is not. -/
theorem witness_rxOctet :
    (∃ (s : State) (c : Context), s.pending = call (.rxOctet 1) [0x7E#8] :: [] ∧ s.context? 1 = some c ∧ c.escapeActive = true) ∧
    (∃ (s : State) (c : Context), s.pending = call (.rxOctet 1) [0x7D#8] :: [] ∧ s.context? 1 = some c ∧ c.escapeActive = false) :=
  ⟨⟨labWith std (row true [] 0xFFFF#16) [call (.rxOctet 1) [0x7E#8]], _, rfl, rfl, rfl⟩,
   ⟨labWith std full [call (.rxOctet 1) [0x7D#8]], _, rfl, rfl, rfl⟩⟩

/-- The small machine while a consumer of context 1 is running, or a `SEND_FRAME` to sink 3, each one call back. -/
def busy (calls : List Call) : State :=
  { labWith std full calls with
    events := [.rx 1 (some [0x41#8]) .frameOk, .tx 3 [] .ok, .rxInit 1] }

/-- `UnserialisedContextUseIsRefused`: a consumer's own octet (60_exceptions.md R131), and a second agent's `RX_INIT`. -/
theorem witness_unserialised :
    (∃ c rest e, (busy [⟨.rxOctet 1, [0x41#8], [2]⟩]).pending = c :: rest ∧ c.port = .rxOctet 1 ∧ 2 ∈ c.during ∧
      (busy [⟨.rxOctet 1, [0x41#8], [2]⟩]).events.reverse[2]? = some e ∧ e = .rx 1 (some [0x41#8]) .frameOk) ∧
    (∃ c rest e, (busy [⟨.rxInit 1, [], [0, 1]⟩]).pending = c :: rest ∧ c.port = .rxInit 1 ∧ 0 ∈ c.during ∧
      (busy [⟨.rxInit 1, [], [0, 1]⟩]).events.reverse[0]? = some e ∧ e = .rxInit 1) :=
  ⟨⟨_, _, _, rfl, rfl, by decide, rfl, rfl⟩, ⟨_, _, _, rfl, rfl, by decide, rfl, rfl⟩⟩

/-- A consumer's octet on its own context is refused; on another context it is not (60_exceptions.md R131). -/
theorem test_reentry :
    refusal (step (busy [⟨.rxOctet 1, [0x41#8], [2]⟩])) = some (.unserialised (.context 1)) ∧
    refusal (step (busy [⟨.rxInit 0, [], [2]⟩])) = none := by decide

/-- `OverlappingSendFramesAreRefused`. -/
theorem witness_overlapping :
    ∃ c rest, (busy [⟨.txFrame 3, [], [1]⟩]).pending = c :: rest ∧ c.port = .txFrame 3 ∧ 1 ∈ c.during ∧
      (busy [⟨.txFrame 3, [], [1]⟩]).events.reverse[1]? = some (.tx 3 [] .ok) :=
  ⟨_, _, rfl, rfl, by decide, rfl⟩

/-- `CrcUpdateIsBijective`. -/
theorem witness_crc_equal : crcStep 0x0000#16 0x01#8 = crcStep 0x0000#16 0x01#8 := rfl

/-- `StuffRowsReturnTheirOctets`. -/
theorem witness_stuffLit : 0x7C#8 ≠ 0x7D#8 ∧ 0x7C#8 ≠ 0x7E#8 ∧ 0x7F#8 ≠ 0x7D#8 ∧ 0x7F#8 ≠ 0x7E#8 := by decide

/-- `StuffedOctetsHoldNoFlag`. -/
theorem witness_stuffed :
    exec .stuffEsc7E (lab std full) =
      .next { lab std full with events := (lab std full).events ++ [.stuffed [0x7D#8, 0x5E#8]] } := rfl

/-- `SendFrameEmitsFrame`: a payload of `MAX_FRAME_LENGTH` octets under `REJECT`, a longer one under `UNCHECKED`. -/
theorem witness_sendFrame :
    ¬((params 3 .cancelOnly .reject).txLengthCheck = .reject ∧
      (params 3 .cancelOnly .reject).maxFrameLength < [0x7E#8, 0x7D#8, 0x41#8].length) ∧
    ¬((params 3 .cancelOnly .unchecked).txLengthCheck = .reject ∧
      (params 3 .cancelOnly .unchecked).maxFrameLength < [0x7E#8, 0x7D#8, 0x41#8, 0x42#8].length) := by decide

/-- `LongPayloadIsRejected`: one octet more than `MAX_FRAME_LENGTH`. -/
theorem witness_longPayload :
    (lab (params 3 .cancelOnly .reject) full).cfg.txLengthCheck = .reject ∧
    (lab (params 3 .cancelOnly .reject) full).cfg.maxFrameLength < [0x01#8, 0x02#8, 0x03#8, 0x04#8].length := by decide

/-- `FrameLengthAndBoundaries`, `FrameBodyDestuffsToPayloadAndFcs` (V3.2.9). -/
theorem witness_emits :
    Emits (lab std full) 3 [0x7E#8] [0x7E#8, 0x7D#8, 0x5E#8, 0x7D#8, 0x5E#8, 0x95#8, 0x7E#8] := by
  unfold Emits
  rfl

/-- `ReservedPayloadIsEscapedThroughout` (V3.2.10). -/
theorem witness_reserved :
    Emits (lab std full) 3 [0x7D#8, 0x7E#8] [0x7E#8, 0x7D#8, 0x5D#8, 0x7D#8, 0x5E#8, 0xFD#8, 0x2A#8, 0x7E#8] ∧
    ∀ b ∈ [0x7D#8, 0x7E#8], b = 0x7D#8 ∨ b = 0x7E#8 := by
  unfold Emits
  exact ⟨rfl, by decide⟩

/-- `SendFrameLeavesNothingBehind`: two different states, two sinks. -/
theorem witness_sendFrame_twice :
    ∃ s s' t t' : State, s ≠ s' ∧ s'.cfg = s.cfg ∧ exec (.sendFrame 3 [0x41#8]) s = .next t ∧
      exec (.sendFrame 4 [0x41#8]) s' = .next t' :=
  ⟨lab std full, busy [], _, _, by decide, rfl, rfl, rfl⟩

/-- `RxInitConstructsContext`. -/
theorem witness_rxInit_constructs :
    (lab std full).cfg.Legal ∧ (lab std full).contexts[0]? = some none := ⟨by decide, rfl⟩

/-- `RxInitRestartsLiveContext`, at the smallest legal capacity. -/
theorem witness_rxInit_live :
    (lab (params 3 .cancelOnly .reject) full).cfg.Legal ∧
    (lab (params 3 .cancelOnly .reject) full).context? 1 = some full := ⟨by decide, rfl⟩

/-- `ReceiverRefusals`, clause by clause: a context not constructed and one the block does not have; `MAX_FRAME_LENGTH`
of 2; the first number past the contexts; a flag that does not fit the row. -/
theorem witness_receiverRefusals :
    ((Instr.rxEsc 0).port = .rxOctet 0 ∧ (lab std full).context? 0 = none) ∧
    ((Instr.rxFlag 2).port = .rxOctet 2 ∧ (lab std full).context? 2 = none) ∧
    ¬(lab (params 2 .cancelOnly .reject) full).cfg.Legal ∧
    ((lab std full).cfg.Legal ∧ (lab std full).contexts.length ≤ 2) ∧
    ((Instr.rxFlagEsc 1).port = .rxOctet 1 ∧ (lab std full).context? 1 = some full ∧
      full.escapeActive ≠ (Instr.rxFlagEsc 1).escapeBefore) :=
  ⟨⟨rfl, rfl⟩, ⟨rfl, rfl⟩, by decide, by decide, rfl, rfl, by decide⟩

/-- `RxFlagDeliversValidFrame`: a payload (V4.2) and the empty payload (V4.1). -/
theorem witness_rxFlag_valid :
    (full.Holds ([0x41#8] ++ [0x0A#8, 0x5C#8]) ∧ [0x41#8].length + 2 ≤ std.maxFrameLength ∧
      full.checksum = (0x0A#8).zeroExtend 16 ||| ((0x5C#8).zeroExtend 16 <<< 8)) ∧
    ((row false [0xFF#8, 0xFF#8] 0xFFFF#16).Holds ([] ++ [0xFF#8, 0xFF#8]) ∧
      ([] : List Octet).length + 2 ≤ std.maxFrameLength ∧
      (0xFFFF#16 : Word) = (0xFF#8).zeroExtend 16 ||| ((0xFF#8).zeroExtend 16 <<< 8)) ∧
    (lab std full).context? 1 = some full ∧ full.escapeActive = false :=
  ⟨⟨⟨rfl, by decide⟩, by decide, by decide⟩, ⟨⟨rfl, by decide⟩, by decide, by decide⟩, rfl, rfl⟩

/-- `RxFlagDiscardsInvalidFrame`: no octet, one octet, and a checksum that differs (V4.7, row 3). -/
theorem witness_rxFlag_invalid :
    (row false [] 0xFFFF#16).position = 0 ∧ (row false [0x55#8] 0xFFFF#16).position = 1 ∧
    ((row false [0x01#8, 0x02#8, 0x03#8] 0x1E0E#16).Holds ([0x01#8] ++ [0x02#8, 0x03#8]) ∧
      [0x01#8].length + 2 ≤ std.maxFrameLength ∧
      (0x1E0E#16 : Word) ≠ (0x02#8).zeroExtend 16 ||| ((0x03#8).zeroExtend 16 <<< 8)) ∧
    (lab std (row false [0x55#8] 0xFFFF#16)).context? 1 = some (row false [0x55#8] 0xFFFF#16) :=
  ⟨rfl, rfl, ⟨⟨rfl, by decide⟩, by decide, by decide⟩, rfl⟩

/-- `RxFlagAlwaysResets`. -/
theorem witness_rxFlag_next : ∃ t, exec (.rxFlag 1) (lab std full) = .next t := ⟨_, rfl⟩

/-- `EscapedBoundaryIsCancelled` and `EscapedBoundaryAbortsFrame`. -/
theorem witness_escapedBoundary :
    (row true [0x41#8] 0xFFFF#16).escapeActive = true ∧
    (lab std (row true [0x41#8] 0xFFFF#16)).context? 1 = some (row true [0x41#8] 0xFFFF#16) ∧
    (lab std full).cfg.escFlagPolicy = .cancelOnly ∧
    (lab (params 16 .abortReset .reject) full).cfg.escFlagPolicy = .abortReset := ⟨rfl, rfl, rfl, rfl⟩

/-- `RxEscSetsFlagOnly`, at the last index before the guard. -/
theorem witness_rxEsc :
    (lab (params 4 .cancelOnly .reject) full).context? 1 = some full ∧ full.escapeActive = false ∧
    full.position + 1 = (params 4 .cancelOnly .reject).maxFrameLength := ⟨rfl, rfl, rfl⟩

/-- `RxDataStoresFoldsAdvances` and `RxDataEscStoresInverted`: with a fold, at the last index that does not fire the
guard, and without one. -/
theorem witness_rxData :
    (full.position + 1 < (params 5 .cancelOnly .reject).maxFrameLength ∧
      (2 ≤ full.position → Memory.read full.buffer (full.position - 2) = some 0x0A#8)) ∧
    ((row true [0x41#8] 0xFFFF#16).position + 1 < std.maxFrameLength ∧
      (2 ≤ (row true [0x41#8] 0xFFFF#16).position →
        Memory.read (row true [0x41#8] 0xFFFF#16).buffer ((row true [0x41#8] 0xFFFF#16).position - 2) =
          some 0x00#8)) ∧
    0x7F#8 ≠ 0x7E#8 ∧ 0x7F#8 ≠ 0x7D#8 := by decide

/-- `OverflowGuardResetsContext`, for both rows, at `MAX_FRAME_LENGTH = 4`. -/
theorem witness_overflow :
    full.position + 1 = (params 4 .cancelOnly .reject).maxFrameLength ∧
    (2 ≤ full.position → Memory.read full.buffer (full.position - 2) = some 0x0A#8) ∧
    full.escapeActive = false ∧ full.setEscape.escapeActive = true ∧
    full.setEscape.position + 1 = (params 4 .cancelOnly .reject).maxFrameLength ∧
    0x41#8 ≠ 0x7E#8 ∧ 0x41#8 ≠ 0x7D#8 := by decide

/-- `AnyEscapedOctetIsStored`, with an escape octet after the escape. -/
theorem witness_anyEscaped :
    (lab std full).Inv ∧ (lab std full).context? 1 = some full ∧ full.escapeActive = false ∧ 0x7D#8 ≠ 0x7E#8 ∧
    full.position + 1 < std.maxFrameLength :=
  ⟨lab_inv (calls := []) (by decide) rfl row_inv_full, rfl, rfl, by decide, by decide⟩

/-- `StatelessOperationsKeepState`, for the three operations. -/
theorem witness_stateless :
    (∀ ctx, (Instr.sendFrame 3 [0x41#8]).port ≠ .rxOctet ctx ∧ (Instr.sendFrame 3 [0x41#8]).port ≠ .rxInit ctx) ∧
    (∃ t, exec (.sendFrame 3 [0x41#8]) (lab std full) = .next t) ∧
    (∃ t, exec (.stuffLit 0x41#8) (lab std full) = .next t) ∧
    (∃ t, exec (.crcUpdate 0x1234#16 0x56#8) (lab std full) = .next t) :=
  ⟨fun _ => ⟨by simp [Instr.port], by simp [Instr.port]⟩, ⟨_, rfl⟩, ⟨_, rfl⟩, ⟨_, rfl⟩⟩

/-- `NonStoringRowsKeepBuffers`, for each of the four operations. -/
theorem witness_nonStoring :
    (∃ t, exec (.rxInit 1) (lab std full) = .next t) ∧ (∃ t, exec (.rxFlag 1) (lab std full) = .next t) ∧
    (∃ t, exec (.rxEsc 1) (lab std full) = .next t) ∧
    (∃ t, exec (.rxFlagEsc 1) (lab std full.setEscape) = .next t) ∧
    (lab std full).context? 1 = some full ∧ (lab std full.setEscape).context? 1 = some full.setEscape :=
  ⟨⟨_, rfl⟩, ⟨_, rfl⟩, ⟨_, rfl⟩, ⟨_, rfl⟩, rfl, rfl⟩

/-- `StoringRowsKeepTheRest`, for both operations. -/
theorem witness_storing :
    (∃ t, exec (.rxData 1 0x41#8) (lab std full) = .next t) ∧
    (∃ t, exec (.rxDataEsc 1 0x5E#8) (lab std full.setEscape) = .next t) := ⟨⟨_, rfl⟩, ⟨_, rfl⟩⟩

/-- `OnlyStoreIsAtPosition`, `EscapeFlagIsSetByEscOnly`, `PositionMovesByOneOrToZero`: a step of context 1 after which
index 3 reads differently. -/
theorem witness_onlyStore :
    ∃ t c', (lab std full).context? 1 = some full ∧ exec (.rxData 1 0x41#8) (lab std full) = .next t ∧
      t.context? 1 = some c' ∧ Memory.read c'.buffer 3 ≠ Memory.read full.buffer 3 ∧
      (Instr.rxData 1 0x41#8).port = .rxOctet 1 :=
  ⟨_, _, rfl, rfl, rfl, by decide, rfl⟩

/-- `ContextsShareNothing`: two states that differ in context 0 and in what was put out. -/
theorem witness_contextsShareNothing :
    ∃ s s' t : State, s.contexts[0]? ≠ s'.contexts[0]? ∧ s.events ≠ s'.events ∧ (Instr.rxFlag 1).port = .rxOctet 1 ∧
      exec (.rxFlag 1) s = .next t ∧ s'.cfg = s.cfg ∧ s'.contexts[1]? = s.contexts[1]? :=
  ⟨lab std full, { busy [] with contexts := [some full, some full] }, _, by decide, by decide, rfl, rfl, rfl, rfl⟩

/-- `StaleOctetsReachNoOutput`: a buffer that differs at `position`. -/
theorem witness_stale :
    ∃ m t, m ≠ full.buffer ∧ (∀ k, k < full.position → Memory.read m k = Memory.read full.buffer k) ∧
      (Instr.rxFlag 1).port = .rxOctet 1 ∧ (lab std full).context? 1 = some full ∧
      exec (.rxFlag 1) (lab std full) = .next t :=
  ⟨Memory.write full.buffer 3 0x99#8, _, by decide, by decide, rfl, rfl, rfl⟩

/-- `FrameOutOnlyFromFlag`, `DeliveredPayloadIsCheckedAndBounded`. -/
theorem witness_delivered :
    ∃ t, (lab std full).Inv ∧ exec (.rxFlag 1) (lab std full) = .next t ∧
      t.events = (lab std full).events ++ [.rx 1 (some [0x41#8]) .frameOk] :=
  ⟨_, lab_inv (calls := []) (by decide) rfl row_inv_full, rfl, rfl⟩

/-- `RxStatusFollowsTable`, `HeldOctetsFollowTheStream`, `EveryOctetCompletes`: a boundary and a data octet. -/
theorem witness_rxRow :
    (lab std full).context? 1 = some full ∧ full.Holds [0x41#8, 0x0A#8, 0x5C#8] ∧ (lab std full).Inv ∧
    (∃ t c', exec (rxRow 1 full.escapeActive 0x7E#8) (lab std full) = .next t ∧ t.context? 1 = some c') ∧
    (∃ t c', exec (rxRow 1 full.escapeActive 0x7D#8) (lab std full) = .next t ∧ t.context? 1 = some c') ∧
    (∃ t c', exec (rxRow 1 full.escapeActive 0xFF#8) (lab std full) = .next t ∧ t.context? 1 = some c') :=
  ⟨rfl, ⟨rfl, by decide⟩, lab_inv (calls := []) (by decide) rfl row_inv_full, ⟨_, _, rfl, rfl⟩, ⟨_, _, rfl, rfl⟩,
   ⟨_, _, rfl, rfl⟩⟩

/-- `StepKeepsInvariant`, `StepNeverFaults`, `ParametersAndContextsPersist`: a sound state with an octet presented to an
escaping context. -/
theorem witness_soundStep :
    ∃ s t : State, s.Inv ∧ step s = .next t ∧ s.pending ≠ [] ∧ ∃ c, s.context? 1 = some c :=
  ⟨labWith std (row true [0x41#8] 0xFFFF#16) [call (.rxOctet 1) [0x7D#8]], _,
   lab_inv (by decide) rfl row_inv_escaping, rfl, by decide, _, rfl⟩

/-- `FramesRoundTrip`: a payload of `MAX_FRAME_LENGTH - 3` octets, a sender with other parameters. -/
theorem witness_roundTrip :
    Emits (lab std full) 3 [0x41#8] [0x7E#8, 0x41#8, 0x0A#8, 0x5C#8, 0x7E#8] ∧
    (lab (params 4 .abortReset .reject) (row false [] 0xFFFF#16)).Inv ∧
    (row false [] 0xFFFF#16).IsReset ∧
    [0x41#8].length + 3 ≤ (params 4 .abortReset .reject).maxFrameLength :=
  ⟨by unfold Emits; rfl, lab_inv (calls := []) (by decide) rfl (row_inv_empty _ (by decide)), ⟨rfl, rfl, rfl⟩,
   by decide⟩

/-- `NextFrameIsDeliveredAfterGarbage`: a context that holds other octets. -/
theorem witness_garbage :
    Emits (lab std full) 3 [0x7E#8] [0x7E#8, 0x7D#8, 0x5E#8, 0x7D#8, 0x5E#8, 0x95#8, 0x7E#8] ∧ (lab std full).Inv ∧
    (lab std full).context? 1 = some full ∧ full.escapeActive = false ∧ full.position ≠ 0 ∧
    [0x7E#8].length + 3 ≤ std.maxFrameLength :=
  ⟨by unfold Emits; rfl, lab_inv (calls := []) (by decide) rfl row_inv_full, rfl, rfl, by decide, by decide⟩

end Sys2Proof.Tests
end

/-! The receive buffer's obligations (20_memory.md): what an operation does to one context's buffer (R34), and that an
operation on one context depends on nothing else and touches nothing else (R41). -/

namespace Sys2Proof.Machine

/-! ## The effect of a receiver's case on the buffer -/

/-- `RX.DATA b` stores `b` at `position`, inside the buffer (42_receiver.md R105). -/
theorem RxEffect.buffer_of_data {cfg : Config} {ctx : Nat} {b : Octet} {c c' : Context} {f : Option (List Octet)}
    {st : RxStatus} (h : RxEffect cfg ctx (.rxData ctx b) c c' f st) :
    c.position < cfg.maxFrameLength ∧ c'.buffer = Memory.write c.buffer c.position b := by
  cases h with
  | data _ _ _ hs =>
    obtain ⟨hlt, -, hbuf, -⟩ := storeData_eq_ok hs
    exact ⟨hlt, hbuf⟩

/-- `RX.DATA_ESC b` stores `b XOR 20` at `position`, inside the buffer (42_receiver.md R104). -/
theorem RxEffect.buffer_of_dataEsc {cfg : Config} {ctx : Nat} {b : Octet} {c c' : Context}
    {f : Option (List Octet)} {st : RxStatus} (h : RxEffect cfg ctx (.rxDataEsc ctx b) c c' f st) :
    c.position < cfg.maxFrameLength ∧ c'.buffer = Memory.write c.buffer c.position (b ^^^ 0x20#8) := by
  cases h with
  | dataEsc _ _ hs =>
    obtain ⟨hlt, -, hbuf, -⟩ := storeData_eq_ok hs
    exact ⟨hlt, hbuf⟩

/-- Every case of the receiver but the two data cases leaves the buffer as it was. -/
theorem RxEffect.data_or_buffer_eq {cfg : Config} {ctx : Nat} {i : Instr} {c c' : Context}
    {f : Option (List Octet)} {st : RxStatus} (h : RxEffect cfg ctx i c c' f st) :
    (∃ b, i = .rxData ctx b ∨ i = .rxDataEsc ctx b) ∨ c'.buffer = c.buffer := by
  cases h with
  | flag | flagEsc | esc => exact .inr (by simp)
  | @dataEsc _ _ b => exact .inl ⟨b, .inr rfl⟩
  | @data _ _ b => exact .inl ⟨b, .inl rfl⟩

/-- A case of the receiver comes in by its context's `rx_octet`. -/
theorem RxEffect.port_eq {cfg : Config} {ctx : Nat} {i : Instr} {c c' : Context} {f : Option (List Octet)}
    {st : RxStatus} (h : RxEffect cfg ctx i c c' f st) : i.port = .rxOctet ctx := by
  cases h <;> rfl

/-! ## What an operation does to one constructed context -/

/-- Replacing a context leaves a constructed context replaced, if it is the one named, or as it was. -/
theorem State.setContext_context?_cases {s : State} {k ctx : Nat} {c c' d : Context}
    (hc : s.context? ctx = some c) (h : (s.setContext k d).context? ctx = some c') :
    (k = ctx ∧ c' = d) ∨ (k ≠ ctx ∧ c' = c) := by
  by_cases hk : k = ctx
  · subst hk
    rw [State.setContext_context?_self (State.context?_lt hc)] at h
    exact .inl ⟨rfl, (Option.some.inj h).symm⟩
  · rw [State.setContext_context?_ne (Ne.symm hk), hc] at h
    exact .inr ⟨hk, (Option.some.inj h).symm⟩

/-- Any operation leaves a constructed context as it was, puts it in its reset state, or is a case of `RX_OCTET` on
it. -/
theorem exec_context?_cases {i : Instr} {s t : State} {ctx : Nat} {c c' : Context}
    (hc : s.context? ctx = some c) (h : exec i s = .next t) (hc' : t.context? ctx = some c') :
    (i.port ≠ .rxOctet ctx ∧ (c' = c ∨ c' = c.reinit)) ∨ ∃ f st, RxEffect s.cfg ctx i c c' f st := by
  rcases exec_next h with ⟨e, he, rfl⟩ | ⟨k, d, rfl, -, hd, rfl⟩ | ⟨k, d, d', f, st, hd, he, rfl⟩
  · rw [State.log_context?, hc] at hc'
    exact .inl ⟨by cases he <;> simp [Instr.port], .inl (Option.some.inj hc').symm⟩
  · refine .inl ⟨by simp [Instr.port], ?_⟩
    rcases State.setContext_context?_cases hc hc' with ⟨rfl, rfl⟩ | ⟨-, hsame⟩
    · rcases hd with ⟨hnone, -⟩ | ⟨c0, hc0, rfl⟩
      · simp [State.context?_eq_some.mp hc] at hnone
      · exact .inr (by rw [Option.some.inj (hc.symm.trans hc0)])
    · exact .inl hsame
  · rcases State.setContext_context?_cases hc hc' with ⟨rfl, rfl⟩ | ⟨hk, hsame⟩
    · cases hc.symm.trans hd
      exact .inr ⟨f, st, he⟩
    · exact .inl ⟨by simp [he.port_eq, hk], .inl hsame⟩

/-- `exec_context?_cases` for an operation that comes in by the context's `rx_octet`. -/
theorem exec_rxEffect_of_port {i : Instr} {s t : State} {ctx : Nat} {c c' : Context} (hp : i.port = .rxOctet ctx)
    (hc : s.context? ctx = some c) (h : exec i s = .next t) (hc' : t.context? ctx = some c') :
    ∃ f st, RxEffect s.cfg ctx i c c' f st :=
  (exec_context?_cases hc h hc').resolve_left fun hne => hne.1 hp

/-- Only a data case of a context changes that context's buffer (20_memory.md R34). -/
theorem exec_data_or_buffer_eq {i : Instr} {s t : State} {ctx : Nat} {c c' : Context}
    (hc : s.context? ctx = some c) (h : exec i s = .next t) (hc' : t.context? ctx = some c') :
    (∃ b, i = .rxData ctx b ∨ i = .rxDataEsc ctx b) ∨ c'.buffer = c.buffer := by
  rcases exec_context?_cases hc h hc' with ⟨-, rfl | rfl⟩ | ⟨f, st, he⟩
  · exact .inr rfl
  · exact .inr (Context.reinit_buffer c)
  · exact he.data_or_buffer_eq

/-- What `RX.DATA b` leaves in its context's buffer. -/
theorem exec_rxData_buffer {s t : State} {ctx : Nat} {b : Octet} {c c' : Context} (hc : s.context? ctx = some c)
    (h : exec (.rxData ctx b) s = .next t) (hc' : t.context? ctx = some c') :
    c.position < s.cfg.maxFrameLength ∧ c'.buffer = Memory.write c.buffer c.position b := by
  obtain ⟨f, st, he⟩ := exec_rxEffect_of_port rfl hc h hc'
  exact he.buffer_of_data

/-- What `RX.DATA_ESC b` leaves in its context's buffer. -/
theorem exec_rxDataEsc_buffer {s t : State} {ctx : Nat} {b : Octet} {c c' : Context} (hc : s.context? ctx = some c)
    (h : exec (.rxDataEsc ctx b) s = .next t) (hc' : t.context? ctx = some c') :
    c.position < s.cfg.maxFrameLength ∧ c'.buffer = Memory.write c.buffer c.position (b ^^^ 0x20#8) := by
  obtain ⟨f, st, he⟩ := exec_rxEffect_of_port rfl hc h hc'
  exact he.buffer_of_dataEsc

/-- An index that reads differently after a write is the index written. -/
theorem Memory.eq_of_read_write_ne {m : Memory} {i a : Nat} {v : Octet}
    (h : Memory.read (Memory.write m i v) a ≠ Memory.read m a) : a = i := by
  by_cases hne : i = a
  · exact hne.symm
  · exact absurd (by rw [Memory.read_write, if_neg hne]) h

/-- Settles O42: a buffer changes only in its context's data cases, and each of them is one write at `position`. -/
theorem onlyStoreIsAtPosition : Obligations.OnlyStoreIsAtPosition := by
  intro i s t ctx c c' hc h hc'
  refine ⟨fun a ha => ?_, ?_, ?_⟩
  · rcases exec_data_or_buffer_eq hc h hc' with ⟨b, hi⟩ | hsame
    · refine ⟨?_, b, hi⟩
      rcases hi with rfl | rfl
      · rw [(exec_rxData_buffer hc h hc').2] at ha
        exact Memory.eq_of_read_write_ne ha
      · rw [(exec_rxDataEsc_buffer hc h hc').2] at ha
        exact Memory.eq_of_read_write_ne ha
    · exact absurd (by rw [hsame]) ha
  · rintro b rfl
    obtain ⟨hlt, hbuf⟩ := exec_rxData_buffer hc h hc'
    exact ⟨hlt, by simp [hbuf]⟩
  · rintro b rfl
    obtain ⟨hlt, hbuf⟩ := exec_rxDataEsc_buffer hc h hc'
    exact ⟨hlt, by simp [hbuf]⟩

/-! ## An operation on one context -/

/-- `RX_INIT` of a context the block has, with legal parameters: the converse of `exec_next` for it
(42_receiver.md R96). -/
theorem exec_rxInit_of {s : State} {ctx : Nat} {c : Context} (hl : s.cfg.Legal)
    (hc : (s.contexts[ctx]? = some none ∧ c = Context.fresh) ∨ ∃ c0, s.context? ctx = some c0 ∧ c = c0.reinit) :
    exec (.rxInit ctx) s = .next ((s.setContext ctx c).log (.rxInit ctx)) := by
  rcases hc with ⟨hnone, rfl⟩ | ⟨c0, hc0, rfl⟩
  · simp [exec, execRxInit, hl, hnone]
  · simp [exec, execRxInit, hl, State.context?_eq_some.mp hc0]

/-- An operation on one context replaces that context and logs one output of that context, the same ones from every
state with the same parameters and the same context (20_memory.md R41). -/
theorem exec_local {i : Instr} {ctx : Nat} {s t : State} (hp : i.port = .rxOctet ctx ∨ i.port = .rxInit ctx)
    (h : exec i s = .next t) :
    ∃ (c : Context) (e : Event), (e = .rxInit ctx ∨ ∃ f st, e = .rx ctx f st) ∧
      t = (s.setContext ctx c).log e ∧
      ∀ s' : State, s'.cfg = s.cfg → s'.contexts[ctx]? = s.contexts[ctx]? →
        exec i s' = .next ((s'.setContext ctx c).log e) := by
  rcases exec_next h with ⟨e, he, -⟩ | ⟨k, c, rfl, hl, hk, ht⟩ | ⟨k, c, c', f, st, hk, he, ht⟩
  · cases he <;> simp [Instr.port] at hp
  · obtain rfl : k = ctx := by simpa [Instr.port] using hp
    refine ⟨c, _, .inl rfl, ht, fun s' hcfg hctx => exec_rxInit_of (hcfg ▸ hl) ?_⟩
    rwa [hctx, State.context?_congr hctx]
  · obtain rfl : k = ctx := by simpa [he.port_eq] using hp
    refine ⟨c', _, .inr ⟨f, st, rfl⟩, ht, fun s' hcfg hctx => exec_of_rxEffect (c := c) ?_ (hcfg ▸ he)⟩
    rwa [State.context?_congr hctx]

/-- Settles O43: `exec_local`, read at the other contexts, at `ctx` and at the outputs. -/
theorem contextsShareNothing : Obligations.ContextsShareNothing := by
  intro i ctx s t hp h
  obtain ⟨c, e, hown, rfl, hlocal⟩ := exec_local hp h
  refine ⟨fun k hk => by simp [Ne.symm hk], fun s' hcfg hctx => ?_⟩
  refine ⟨_, e, hlocal s' hcfg hctx, ?_, by simp, by simp, hown⟩
  simp only [State.log_contexts, State.setContext_contexts, List.getElem?_set_self', hctx]

end Sys2Proof.Machine

/-! The Checksum Engine's obligations (40_crc.md): `CRC_UPDATE` is the source's formula in natural numbers (R70), and
the checksum of a sequence is its left fold (R71). -/

namespace Sys2Proof.Machine

/-! ## The parts of `crc_update` as natural numbers (40_crc.md R70, R73) -/

theorem lowOctet_toNat (v : Word) : (lowOctet v).toNat = v.toNat % 256 := by
  simp [lowOctet]

theorem highOctet_toNat (v : Word) : (highOctet v).toNat = v.toNat / 256 := by
  have hv : v.toNat / 256 < 256 := by omega
  simp [highOctet, Nat.shiftRight_eq_div_pow, Nat.mod_eq_of_lt hv]

/-- A left shift of an octet keeps its low eight bits. -/
theorem octet_shiftLeft_toNat (x : Octet) (k : Nat) : (x <<< k).toNat = x.toNat * 2 ^ k % 256 := by
  simp [Nat.shiftLeft_eq]

/-- A left shift of an octet extended to a word keeps its low sixteen bits. -/
theorem zeroExtend_shiftLeft_toNat (x : Octet) (k : Nat) :
    (x.zeroExtend 16 <<< k).toNat = x.toNat * 2 ^ k % 65536 := by
  have hx : x.toNat < 65536 := by omega
  simp [Nat.shiftLeft_eq, Nat.mod_eq_of_lt hx]

/-- Extending an octet to a word keeps its value. -/
theorem zeroExtend_toNat (x : Octet) : (x.zeroExtend 16).toNat = x.toNat :=
  BitVec.toNat_setWidth_of_le (by decide)

theorem octet_shiftRight_toNat (x : Octet) (k : Nat) : (x >>> k).toNat = x.toNat / 2 ^ k := by
  rw [BitVec.toNat_ushiftRight, Nat.shiftRight_eq_div_pow]

/-- Moving an octet to the high half of a word loses no bit, so the source writes that shift without a `mod`. -/
theorem zeroExtend_shiftLeft_eight_toNat (x : Octet) : (x.zeroExtend 16 <<< 8).toNat = x.toNat * 256 := by
  rw [zeroExtend_shiftLeft_toNat]
  omega

/-- `crc_update` on words is the source's formula on natural numbers: every operation of it acts on the values, with
the source's own two `mod`s standing where the widths cut a shift (40_crc.md R70). -/
theorem crcStep_toNat (crc : Word) (b : Octet) : (crcStep crc b).toNat = crcUpdateNat crc.toNat b.toNat := by
  simp only [crcStep, BitVec.toNat_xor, BitVec.toNat_or, zeroExtend_shiftLeft_eight_toNat]
  simp only [crcUpdateNat, BitVec.toNat_xor, zeroExtend_shiftLeft_toNat, zeroExtend_toNat, octet_shiftLeft_toNat,
    octet_shiftRight_toNat, lowOctet_toNat, highOctet_toNat, Nat.reducePow]

/-- `CRC_UPDATE` answers, in every state, the state with its result logged (40_crc.md R70). -/
theorem exec_crcUpdate (crc : Word) (b : Octet) (s : State) :
    exec (.crcUpdate crc b) s = .next (s.log (.crc (crcStep crc b))) := rfl

/-- Settles O11: the result is `crcStep crc b`, whose value is the source's formula. -/
theorem crcUpdateComputesFormula : Obligations.CrcUpdateComputesFormula := fun s crc b =>
  ⟨crcStep crc b, exec_crcUpdate crc b s, crcStep_toNat crc b⟩

/-! ## Accumulation over a sequence (40_crc.md R71) -/

@[simp] theorem crc16_nil : crc16 [] = 0xFFFF#16 := rfl

theorem crc16_append_singleton (xs : List Octet) (b : Octet) : crc16 (xs ++ [b]) = crcStep (crc16 xs) b := by
  simp only [crc16, List.foldl_append, List.foldl_cons, List.foldl_nil]

/-- Settles O12: `crc16` is a left fold, by its equations at the empty sequence and at one more octet. -/
theorem crc16FoldsFromInit : Obligations.Crc16FoldsFromInit := ⟨crc16_nil, crc16_append_singleton⟩

end Sys2Proof.Machine

/-! The obligations of the Byte Stuffer and the Frame Encoder (41_stuffer_encoder.md): what `STUFF` returns (R80), the
octets of one frame (R85), the state left alone (R86), and a payload of reserved octets (R90). -/

namespace Sys2Proof.Machine

/-! ## The wire form of an octet (41_stuffer_encoder.md R80, R82) -/

theorem wireForm_of_reserved {b : Octet} (h : b = 0x7D#8 ∨ b = 0x7E#8) : wireForm b = [0x7D#8, b ^^^ 0x20#8] :=
  if_pos h

theorem wireForm_of_ordinary {b : Octet} (hesc : b ≠ 0x7D#8) (hflag : b ≠ 0x7E#8) : wireForm b = [b] :=
  if_neg (not_or.mpr ⟨hesc, hflag⟩)

/-- The model's stuffing, by the row an octet selects, is the wire format's (30_encoding.md R51, R56). -/
theorem stuff_eq_wireForm (b : Octet) : stuff b = wireForm b := by
  unfold stuff
  split
  case h_1 h =>
    obtain ⟨hesc, hflag⟩ := stuffCase_eq_lit.mp h
    exact (wireForm_of_ordinary hesc hflag).symm
  case h_2 h => exact (wireForm_of_reserved (.inl (stuffCase_eq_esc7D.mp h))).symm
  case h_3 h => exact (wireForm_of_reserved (.inr (stuffCase_eq_esc7E.mp h))).symm

/-- De-stuffing an escaped octet inverts it, whatever follows (41_stuffer_encoder.md R82). -/
theorem destuff_esc_cons (x : Octet) (xs : List Octet) :
    destuff (0x7D#8 :: x :: xs) = (x ^^^ 0x20#8) :: destuff xs := by
  rw [destuff, if_pos rfl]

/-- De-stuffing keeps any octet but the escape (41_stuffer_encoder.md R82). -/
theorem destuff_cons_of_ne_esc {b : Octet} (h : b ≠ 0x7D#8) (xs : List Octet) :
    destuff (b :: xs) = b :: destuff xs := by
  cases xs with
  | nil => simp [destuff, h]
  | cons x xs => rw [destuff, if_neg h]

/-- De-stuffing takes one stuffed octet at a time: the inversion undoes itself, and an ordinary octet is kept. -/
theorem destuff_wireForm_append (b : Octet) (xs : List Octet) : destuff (wireForm b ++ xs) = b :: destuff xs := by
  by_cases h : b = 0x7D#8 ∨ b = 0x7E#8
  · have hinv : (b ^^^ 0x20#8) ^^^ 0x20#8 = b := by rw [BitVec.xor_assoc, BitVec.xor_self, BitVec.xor_zero]
    rw [wireForm_of_reserved h, List.cons_append, List.cons_append, destuff_esc_cons, hinv, List.nil_append]
  · obtain ⟨hesc, hflag⟩ := not_or.mp h
    rw [wireForm_of_ordinary hesc hflag]
    exact destuff_cons_of_ne_esc hesc xs

/-- De-stuffing the stuffed form of a sequence returns the sequence (41_stuffer_encoder.md R82). -/
theorem destuff_flatMap_wireForm (xs : List Octet) : destuff (xs.flatMap wireForm) = xs := by
  induction xs with
  | nil => rfl
  | cons b xs ih => rw [List.flatMap_cons, destuff_wireForm_append, ih]

/-! ## `STUFF` (41_stuffer_encoder.md R80) -/

/-- `STUFF` of an octet that selects the row executed logs the octet's wire form. -/
theorem stuffEnd_of {row : StuffCase} {b : Octet} (h : stuffCase b = row) (s : State) :
    stuffEnd row b s = .next (s.log (.stuffed (wireForm b))) := by
  rw [stuffEnd, if_pos h, stuff_eq_wireForm]

/-- Settles O17: each row selects its octets, and their wire forms are the ones stated. -/
theorem stuffRowsReturnTheirOctets : Obligations.StuffRowsReturnTheirOctets := by
  refine fun s => ⟨fun b hesc hflag => ?_, ?_, ?_⟩
  · rw [← wireForm_of_ordinary hesc hflag]
    exact stuffEnd_of (stuffCase_eq_lit.mpr ⟨hesc, hflag⟩) s
  · rw [← wireForm_of_reserved (.inl rfl)]
    exact stuffEnd_of (stuffCase_eq_esc7D.mpr rfl) s
  · rw [← wireForm_of_reserved (.inr rfl)]
    exact stuffEnd_of (stuffCase_eq_esc7E.mpr rfl) s

/-! ## `SEND_FRAME` (41_stuffer_encoder.md R85, R86, R88) -/

/-- Steps 2 to 4 from a running checksum `fcs`: the stuffed payload, the two octets of its fold stuffed, low first, and
the boundary (41_stuffer_encoder.md R85). -/
theorem sendBody_eq (fcs : Word) (p : List Octet) :
    sendBody fcs p = p.flatMap wireForm ++ wireForm (lowOctet (p.foldl crcStep fcs))
      ++ wireForm (highOctet (p.foldl crcStep fcs)) ++ [flagOctet] := by
  induction p generalizing fcs with
  | nil => simp [sendBody, stuff_eq_wireForm]
  | cons b p ih => simp [sendBody, stuff_eq_wireForm, ih]

/-- The octets emitted one after the other with a running checksum are the frame of the wire format
(30_encoding.md R51). -/
theorem frameOctets_eq_wireFrame (p : List Octet) : frameOctets p = wireFrame p :=
  congrArg (flagOctet :: ·) (sendBody_eq crcInit p)

/-- `SEND_FRAME` of a payload the length check lets through (41_stuffer_encoder.md R85). -/
theorem exec_sendFrame_of_fits {s : State} {p : List Octet}
    (h : ¬(s.cfg.txLengthCheck = .reject ∧ s.cfg.maxFrameLength < p.length)) (sink : Nat) :
    exec (.sendFrame sink p) s = .next (s.log (.tx sink (wireFrame p) .ok)) := by
  rw [← frameOctets_eq_wireFrame]
  exact if_neg h

/-- `SEND_FRAME` of a payload the length check rejects (41_stuffer_encoder.md R88). -/
theorem exec_sendFrame_of_tooLong {s : State} {p : List Octet}
    (h : s.cfg.txLengthCheck = .reject ∧ s.cfg.maxFrameLength < p.length) (sink : Nat) :
    exec (.sendFrame sink p) s = .next (s.log (.tx sink [] (.payloadTooLarge p.length))) :=
  if_pos h

/-- Settles O20: the octets of `exec_sendFrame_of_fits` are the frame of the wire format, whose FCS is the fold. -/
theorem sendFrameEmitsFrame : Obligations.SendFrameEmitsFrame := fun _ sink _ h => exec_sendFrame_of_fits h sink

/-- Under fixed parameters `SEND_FRAME` of a payload logs one entry, with the same octets and the same answer from every
state and to every sink (41_stuffer_encoder.md R86). -/
theorem exec_sendFrame_uniform (cfg : Config) (p : List Octet) :
    ∃ (octets : List Octet) (r : TxResult), ∀ (s : State) (sink : Nat), s.cfg = cfg →
      exec (.sendFrame sink p) s = .next (s.log (.tx sink octets r)) := by
  by_cases h : cfg.txLengthCheck = .reject ∧ cfg.maxFrameLength < p.length
  · exact ⟨[], .payloadTooLarge p.length, fun _ sink hcfg => exec_sendFrame_of_tooLong (hcfg ▸ h) sink⟩
  · exact ⟨wireFrame p, .ok, fun _ sink hcfg => exec_sendFrame_of_fits (hcfg ▸ h) sink⟩

/-- Settles O25: both runs log the entry of `exec_sendFrame_uniform`. -/
theorem sendFrameLeavesNothingBehind : Obligations.SendFrameLeavesNothingBehind := by
  intro s s' t t' sink sink' p hcfg h h'
  obtain ⟨octets, r, hall⟩ := exec_sendFrame_uniform s.cfg p
  rw [hall s sink rfl] at h
  rw [hall s' sink' hcfg] at h'
  cases h
  cases h'
  exact ⟨octets, r, rfl, rfl⟩

/-- A frame that `SEND_FRAME` emits is the frame of the wire format: the other branch answers `PayloadTooLarge`. -/
theorem Emits.octets_eq {s : State} {sink : Nat} {p octets : List Octet} (h : Emits s sink p octets) :
    octets = wireFrame p := by
  unfold Emits at h
  by_cases hlong : s.cfg.txLengthCheck = .reject ∧ s.cfg.maxFrameLength < p.length
  · rw [exec_sendFrame_of_tooLong hlong] at h
    simp [State.log] at h
  · rw [exec_sendFrame_of_fits hlong] at h
    simpa [State.log, eq_comm] using h

/-! ## A payload of reserved octets (41_stuffer_encoder.md R90) -/

/-- Reserved octets are stuffed into two octets each. -/
theorem length_flatMap_wireForm_of_reserved {p : List Octet} (h : ∀ b ∈ p, b = 0x7D#8 ∨ b = 0x7E#8) :
    (p.flatMap wireForm).length = 2 * p.length := by
  induction p with
  | nil => rfl
  | cons b p ih =>
    obtain ⟨hb, hp⟩ := List.forall_mem_cons.mp h
    rw [List.flatMap_cons, wireForm_of_reserved hb, List.length_append, ih hp, List.length_cons]
    simp only [List.length_cons, List.length_nil]
    omega

/-- The pair at `2 * k` in a stuffed sequence of reserved octets is the escape and octet `k` inverted. -/
theorem getElem?_flatMap_wireForm_of_reserved {p : List Octet} (h : ∀ b ∈ p, b = 0x7D#8 ∨ b = 0x7E#8) {k : Nat}
    (hk : k < p.length) :
    (p.flatMap wireForm)[2 * k]? = some 0x7D#8 ∧
      (p.flatMap wireForm)[2 * k + 1]? = p[k]?.map (fun b => b ^^^ 0x20#8) := by
  induction p generalizing k with
  | nil => cases hk
  | cons b p ih =>
    obtain ⟨hb, hp⟩ := List.forall_mem_cons.mp h
    rw [List.flatMap_cons, wireForm_of_reserved hb]
    cases k with
    | zero => exact ⟨rfl, rfl⟩
    | succ k => exact ih hp (Nat.lt_of_succ_lt_succ hk)

/-- Settles O24: the body is the stuffed payload, a pair for each octet. -/
theorem reservedPayloadIsEscapedThroughout : Obligations.ReservedPayloadIsEscapedThroughout := by
  intro s sink p octets hemits hres
  refine ⟨p.flatMap wireForm, wireForm ((crc16 p).extractLsb' 0 8) ++ wireForm ((crc16 p).extractLsb' 8 8) ++ [0x7E#8],
    ?_, length_flatMap_wireForm_of_reserved hres, fun k hk => getElem?_flatMap_wireForm_of_reserved hres hk,
    destuff_flatMap_wireForm p⟩
  simp only [hemits.octets_eq, wireFrame, List.append_assoc]

end Sys2Proof.Machine

/-! The Frame Receiver's obligations (42_receiver.md): which case an octet runs (R97), construction (R96), the boundary
(R98 to R100), and the escape and data cases (R103 to R105). -/

namespace Sys2Proof.Machine

/-! ## The case an arriving octet runs (42_receiver.md R97) -/

/-- The row of an octet at a receiver, as the tests of R97 in their order. -/
theorem decodeRx_eq (ctx : Nat) (e : Bool) (b : Octet) :
    decodeRx ctx e b =
      if b = 0x7E#8 then (if e = true then .rxFlagEsc ctx else .rxFlag ctx)
      else if e = true then .rxDataEsc ctx b
      else if b = 0x7D#8 then .rxEsc ctx
      else .rxData ctx b := by
  simp only [decodeRx, rxCase, flagOctet, escOctet]
  by_cases hflag : b = 0x7E#8
  · cases e <;> simp [hflag]
  · by_cases hesc : b = 0x7D#8 <;> cases e <;> simp [hflag, hesc]

/-- A serialised call shares nothing with a call not yet ended (20_memory.md R38). -/
theorem conflict_of_serialised {call : Call} (h : call.during = []) (s : State) : conflict s call = none := by
  unfold conflict
  split
  · rfl
  · simp [unfinished, h]

/-- The converse of `step_cases`: a call that is not in conflict and that decodes is performed. -/
theorem step_of_decoded {s : State} {call : Call} {rest : List Call} {i : Instr} (hp : s.pending = call :: rest)
    (hc : conflict s call = none) (hd : decode call.port (escapeSeen s call.port) call.octets = .instr i) :
    step s = exec i { s with pending := rest } := by
  simp only [step, fetch, hp, hc, hd]

/-- What the decoding of an octet for a constructed context sees is that context's flag (30_encoding.md R53). -/
theorem escapeSeen_rxOctet {s : State} {ctx : Nat} {c : Context} (hc : s.context? ctx = some c) :
    escapeSeen s (.rxOctet ctx) = c.escapeActive := by
  simp only [escapeSeen, hc]

/-- Settles O8: the step performs the decoded row, and `decodeRx_eq` writes that row as the tests of R97. -/
theorem rxOctetRunsOneCase : Obligations.RxOctetRunsOneCase := by
  intro s ctx c b rest hp hc
  rw [← decodeRx_eq, ← escapeSeen_rxOctet hc]
  exact step_of_decoded hp (conflict_of_serialised rfl s) rfl

/-! ## `RX_INIT` (42_receiver.md R96) -/

/-- Settles O26: the context constructed is `Context.fresh`. -/
theorem rxInitConstructsContext : Obligations.RxInitConstructsContext := fun _ _ hl hnone =>
  ⟨[], exec_rxInit_of hl (.inl ⟨hnone, rfl⟩)⟩

/-! ## The octets held, as the boundary reads them (42_receiver.md R98, R99) -/

/-- Every octet held inside the buffer can be read. -/
theorem Context.Holds.memRead_eq {cfg : Config} {c : Context} {xs : List Octet} (h : c.Holds xs)
    (hfit : xs.length ≤ cfg.maxFrameLength) {k : Nat} {v : Octet} (hv : xs[k]? = some v) :
    memRead cfg c k = .ok v := by
  obtain ⟨hpos, hread⟩ := h
  have hk : k < xs.length := (List.getElem?_eq_some_iff.mp hv).1
  exact memRead_eq_ok.mpr ⟨by omega, by omega, (hread k hk).trans hv⟩

/-- The first octets held can be read together. -/
theorem Context.Holds.memReadPrefix_eq {cfg : Config} {c : Context} {p ys : List Octet} (h : c.Holds (p ++ ys))
    (hfit : (p ++ ys).length ≤ cfg.maxFrameLength) : memReadPrefix cfg c p.length = .ok p := by
  refine memReadPrefix_eq_ok.mpr ⟨rfl, fun k hk => ⟨p[k], h.memRead_eq hfit ?_, List.getElem?_eq_getElem hk⟩⟩
  rw [List.getElem?_append_left hk, List.getElem?_eq_getElem hk]

/-- The boundary of a context that holds at least two octets: the test of R98 on the last two. -/
theorem boundary_of_holds {cfg : Config} {c : Context} {p : List Octet} {lo hi : Octet}
    (h : c.Holds (p ++ [lo, hi])) (hfit : p.length + 2 ≤ cfg.maxFrameLength) :
    boundary cfg c =
      .ok (if c.checksum = fcsOf lo hi then (some p, .frameOk) else (none, .checksumMismatch)) := by
  have hlen : (p ++ [lo, hi]).length ≤ cfg.maxFrameLength := by simpa using hfit
  have hpos : c.position = p.length + 2 := by simpa using h.1
  have hlo : memRead cfg c (c.position - 2) = .ok lo := h.memRead_eq hlen (by simp [hpos])
  have hhi : memRead cfg c (c.position - 1) = .ok hi := h.memRead_eq hlen (by simp [hpos])
  have hp : memReadPrefix cfg c (c.position - 2) = .ok p := by
    simpa [hpos] using h.memReadPrefix_eq hlen
  have h2 : 2 ≤ c.position := by omega
  simp only [boundary, if_pos h2, hlo, hhi, hp]
  split <;> rfl

/-- The boundary of a context that holds fewer than two octets. -/
theorem boundary_of_lt_two {cfg : Config} {c : Context} (h : c.position < 2) :
    boundary cfg c = .ok (none, if c.position = 0 then .none else .runt) := by
  obtain h0 | h1 : c.position = 0 ∨ c.position = 1 := by omega
  · simp [boundary, h0]
  · simp [boundary, h1]

/-- The FCS of the last two octets is the little-endian value of R98. -/
theorem fcsOf_eq_or (lo hi : Octet) : fcsOf lo hi = lo.zeroExtend 16 ||| (hi.zeroExtend 16 <<< 8) :=
  joinOctets_eq_or hi lo

/-! ## `RX.FLAG` (42_receiver.md R98 to R100) -/

/-- Settles O29: `boundary_of_holds` where the checksum matches. -/
theorem rxFlagDeliversValidFrame : Obligations.RxFlagDeliversValidFrame := by
  intro s ctx c p lo hi hc he hholds hfit hsum
  rw [← fcsOf_eq_or] at hsum
  exact exec_of_rxEffect hc (.flag he (by rw [boundary_of_holds hholds hfit, if_pos hsum]))

/-- Settles O30: `boundary_of_lt_two`, and `boundary_of_holds` where the checksum differs. -/
theorem rxFlagDiscardsInvalidFrame : Obligations.RxFlagDiscardsInvalidFrame := by
  intro s ctx c hc he
  refine ⟨fun hlt => exec_of_rxEffect hc (.flag he (boundary_of_lt_two hlt)), ?_⟩
  intro p lo hi hholds hfit hsum
  rw [← fcsOf_eq_or] at hsum
  exact exec_of_rxEffect hc (.flag he (by rw [boundary_of_holds hholds hfit, if_neg hsum]))

/-- Settles O31: the only effect of `RX.FLAG` on its context is `Context.reinit`. -/
theorem rxFlagAlwaysResets : Obligations.RxFlagAlwaysResets := by
  intro s t ctx h
  obtain ⟨c, hc, -⟩ := rxBegin_next h
  obtain ⟨c', f, st, he, rfl⟩ := exec_rx_next rfl hc h
  cases he with
  | flag => exact ⟨c, c.reinit, hc, State.setContext_context?_self (State.context?_lt hc), rfl, rfl, rfl, rfl⟩

/-! ## The escape and data cases (42_receiver.md R103 to R105) -/

/-- Settles O34: the effect of `RX.ESC` is `Context.setEscape`. -/
theorem rxEscSetsFlagOnly : Obligations.RxEscSetsFlagOnly := fun _ _ _ hc he => exec_of_rxEffect hc (.esc he)

/-- A data case whose octet does not fill the buffer: `storeData_of` with the guard not met (42_receiver.md R105). -/
theorem storeData_of_room {cfg : Config} {c : Context} {x : Octet} (hroom : c.position + 1 < cfg.maxFrameLength)
    (hx : 2 ≤ c.position → Memory.read c.buffer (c.position - 2) = some x) (v : Octet) :
    storeData cfg c v =
      .ok ({ c with position := c.position + 1, checksum := foldedBy c x
                    buffer := Memory.write c.buffer c.position v }, .none) := by
  rw [storeData_of (by omega) hx, advance_eq, if_neg (Nat.ne_of_lt hroom)]

/-- Settles O35: `storeData_of_room` at the context as it is. -/
theorem rxDataStoresFoldsAdvances : Obligations.RxDataStoresFoldsAdvances := by
  intro s ctx c b x hc he hflag hesc hroom hx
  rw [exec_of_rxEffect hc (.data he hflag hesc (storeData_of_room hroom hx b)), he]
  rfl

/-- Settles O36: `storeData_of_room` at the context with its flag cleared, for the octet inverted. -/
theorem rxDataEscStoresInverted : Obligations.RxDataEscStoresInverted := by
  intro s ctx c b x hc he hflag hroom hx
  exact exec_of_rxEffect hc (.dataEsc he hflag (storeData_of_room (c := c.clearEscape) hroom hx (unescape b)))

end Sys2Proof.Machine

/-! The identities of `crc_update` (40_crc.md section 4). It is linear over XOR and a value is the XOR of its high
octet in place and its low octet, so each identity rests on facts about 256 octets. -/

namespace Sys2Proof.Machine

/-! ## Linearity (40_crc.md section 4, identity 3) -/

/-- A step of an accumulator by an octet that is linear over XOR in both together. -/
def XorLinear (f : Word → Octet → Word) : Prop :=
  ∀ c1 c2 b1 b2, f (c1 ^^^ c2) (b1 ^^^ b2) = f c1 b1 ^^^ f c2 b2

theorem lowOctet_xor (v w : Word) : lowOctet (v ^^^ w) = lowOctet v ^^^ lowOctet w := BitVec.extractLsb'_xor

theorem highOctet_xor (v w : Word) : highOctet (v ^^^ w) = highOctet v ^^^ highOctet w := BitVec.extractLsb'_xor

theorem joinOctets_xor (hi hi' lo lo' : Octet) :
    joinOctets (hi ^^^ hi') (lo ^^^ lo') = joinOctets hi lo ^^^ joinOctets hi' lo' := BitVec.xor_append.symm

/-- The octet `x2` of the source's formula (40_crc.md R70). -/
def crcMix (crc : Word) (b : Octet) : Octet := b ^^^ lowOctet crc ^^^ ((b ^^^ lowOctet crc) <<< 4)

theorem crcMix_xor (c1 c2 : Word) (b1 b2 : Octet) :
    crcMix (c1 ^^^ c2) (b1 ^^^ b2) = crcMix c1 b1 ^^^ crcMix c2 b2 := by
  simp only [crcMix, lowOctet_xor, BitVec.shiftLeft_xor_distrib]
  ac_rfl

/-- `crc_update` by `x2` and the accumulator's high octet (40_crc.md R70). -/
theorem crcStep_eq_crcMix (crc : Word) (b : Octet) :
    crcStep crc b =
      joinOctets (crcMix crc b) (highOctet crc) ^^^ (crcMix crc b >>> 4).zeroExtend 16 ^^^
        ((crcMix crc b).zeroExtend 16 <<< 3) := by
  rw [joinOctets_eq_or, BitVec.or_comm]
  rfl

theorem crcStep_xorLinear : XorLinear crcStep := fun c1 c2 b1 b2 => by
  simp only [crcStep_eq_crcMix, crcMix_xor, highOctet_xor, joinOctets_xor, BitVec.ushiftRight_xor_distrib,
    BitVec.setWidth_xor, BitVec.shiftLeft_xor_distrib]
  ac_rfl

/-- Settles O14: every part of the formula is linear. -/
theorem crcUpdateIsLinear : Obligations.CrcUpdateIsLinear := crcStep_xorLinear

/-! ## A step by the two octets of the accumulator -/

/-- A value is its high octet in place XOR its low octet. -/
theorem word_eq_xor (v : Word) : v = (highOctet v).zeroExtend 16 <<< 8 ^^^ (lowOctet v).zeroExtend 16 := by
  have hlow : joinOctets 0#8 (lowOctet v) = (lowOctet v).zeroExtend 16 := by simp [joinOctets_eq_or]
  have hhigh : joinOctets (highOctet v) 0#8 = (highOctet v).zeroExtend 16 <<< 8 := by simp [joinOctets_eq_or]
  rw [← hlow, ← hhigh, ← joinOctets_xor, BitVec.xor_zero, BitVec.zero_xor, joinOctets_octets]

/-- A linear step that moves the high octet down, and takes the low octet as it takes the octet absorbed, folds their
XOR into the high octet. -/
theorem XorLinear.eq_highOctet_xor {f : Word → Octet → Word} (hf : XorLinear f)
    (hhigh : ∀ h : Octet, f (h.zeroExtend 16 <<< 8) 0#8 = h.zeroExtend 16)
    (hlow : ∀ l : Octet, f (l.zeroExtend 16) 0#8 = f 0#16 l) (v : Word) (b : Octet) :
    f v b = (highOctet v).zeroExtend 16 ^^^ f 0#16 (lowOctet v ^^^ b) := by
  have hsum : f ((lowOctet v).zeroExtend 16) b = f 0#16 (lowOctet v ^^^ b) := by
    calc f ((lowOctet v).zeroExtend 16) b
        = f ((lowOctet v).zeroExtend 16 ^^^ 0#16) (0#8 ^^^ b) := by rw [BitVec.xor_zero, BitVec.zero_xor]
      _ = f 0#16 (lowOctet v) ^^^ f 0#16 b := by rw [hf, hlow]
      _ = f 0#16 (lowOctet v ^^^ b) := by rw [← hf, BitVec.xor_zero]
  calc f v b
      = f ((highOctet v).zeroExtend 16 <<< 8 ^^^ (lowOctet v).zeroExtend 16) (0#8 ^^^ b) := by
        rw [← word_eq_xor, BitVec.zero_xor]
    _ = (highOctet v).zeroExtend 16 ^^^ f 0#16 (lowOctet v ^^^ b) := by rw [hf, hhigh, hsum]

theorem crcStep_eq_highOctet_xor (v : Word) (b : Octet) :
    crcStep v b = (highOctet v).zeroExtend 16 ^^^ crcStep 0#16 (lowOctet v ^^^ b) :=
  crcStep_xorLinear.eq_highOctet_xor (by decide) (by decide) v b

/-! ## Absorbing the accumulator's own octets (40_crc.md section 4, identities 1 and 2) -/

theorem highOctet_zeroExtend (v : Word) : (highOctet v).zeroExtend 16 = v >>> 8 := by
  apply BitVec.eq_of_toNat_eq
  rw [zeroExtend_toNat, highOctet_toNat, BitVec.toNat_ushiftRight, Nat.shiftRight_eq_div_pow]

/-- Absorbing the accumulator's own low octet shifts it right by eight. -/
theorem crcStep_lowOctet (v : Word) : crcStep v (lowOctet v) = v >>> 8 := by
  have hzero : crcStep 0#16 0#8 = 0#16 := by decide
  rw [crcStep_eq_highOctet_xor, BitVec.xor_self, hzero, BitVec.xor_zero, highOctet_zeroExtend]

theorem lowOctet_shiftRight (v : Word) : lowOctet (v >>> 8) = highOctet v := by
  apply BitVec.eq_of_toNat_eq
  rw [lowOctet_toNat, highOctet_toNat, BitVec.toNat_ushiftRight, Nat.shiftRight_eq_div_pow]
  omega

/-- Absorbing both octets of the accumulator, low first, leaves zero. -/
theorem crcStep_own_octets (v : Word) : crcStep (crcStep v (lowOctet v)) (highOctet v) = 0#16 := by
  rw [crcStep_lowOctet, ← lowOctet_shiftRight, crcStep_lowOctet, ← BitVec.shiftRight_add]
  exact BitVec.ushiftRight_eq_zero (by decide)

/-- Settles O13: `crcStep_lowOctet`, and `crcStep_own_octets` at the payload's checksum. -/
theorem crcOfOwnOctetsIsZero : Obligations.CrcOfOwnOctetsIsZero := by
  refine ⟨crcStep_lowOctet, fun p => ?_⟩
  simp only [crc16, List.foldl_append]
  exact crcStep_own_octets (crc16 p)

/-! ## Bijectivity (40_crc.md section 4, identity 4) -/

/-- The high octet of a fold of zero determines the octet folded in. -/
theorem eq_zero_of_highOctet_crcStep : ∀ x : Octet, highOctet (crcStep 0#16 x) = 0#8 → x = 0#8 := by decide

theorem highOctet_zeroExtend_octet : ∀ x : Octet, highOctet (x.zeroExtend 16) = 0#8 := by decide

/-- An accumulator that absorbs 0 to zero is zero: the fold of its low octet alone reaches the high octet. -/
theorem eq_zero_of_crcStep {v : Word} (h : crcStep v 0#8 = 0#16) : v = 0#16 := by
  rw [crcStep_eq_highOctet_xor, BitVec.xor_zero, BitVec.xor_eq_zero_iff] at h
  have hlow : lowOctet v = 0#8 := by
    apply eq_zero_of_highOctet_crcStep
    rw [← h, highOctet_zeroExtend_octet]
  have hhigh : (highOctet v).zeroExtend 16 = 0#16 := by rw [h, hlow]; decide
  rw [word_eq_xor v, hhigh, hlow]
  rfl

/-- `crc_update` is injective in the accumulator. -/
theorem crcStep_injective (b : Octet) : Function.Injective (crcStep · b) := by
  intro c1 c2 h
  have hdiff : crcStep (c1 ^^^ c2) 0#8 = 0#16 := by
    have hlin := crcStep_xorLinear c1 c2 b b
    rwa [BitVec.xor_self, BitVec.xor_eq_zero_iff.mpr h] at hlin
  exact BitVec.xor_eq_zero_iff.mp (eq_zero_of_crcStep hdiff)

/-- `crc_update` is injective in the octet. -/
theorem crcStep_injective_octet (c : Word) : Function.Injective (crcStep c) := by
  intro b1 b2 h
  have hdiff : crcStep 0#16 (b1 ^^^ b2) = 0#16 := by
    have hlin := crcStep_xorLinear c c b1 b2
    rwa [BitVec.xor_self, BitVec.xor_eq_zero_iff.mpr h] at hlin
  exact BitVec.xor_eq_zero_iff.mp (eq_zero_of_highOctet_crcStep _ (by rw [hdiff]; rfl))

/-- The octet whose fold of zero has the high octet `h`. The fold's high octet is `x2 XOR (x2 >> 5)` with `x2` being
`x XOR (x << 4)`, and each of these two maps is its own inverse. -/
def crcUnfold (h : Octet) : Octet := (h ^^^ h >>> 5) ^^^ ((h ^^^ h >>> 5) <<< 4)

theorem highOctet_crcStep_crcUnfold : ∀ h : Octet, highOctet (crcStep 0#16 (crcUnfold h)) = h := by decide

/-- The accumulator that absorbs `b` to `r`: `r`'s high octet gives the octet folded in, and the rest is what was moved
down. -/
def crcUnstep (r : Word) (b : Octet) : Word :=
  joinOctets (lowOctet (r ^^^ crcStep 0#16 (crcUnfold (highOctet r)))) (crcUnfold (highOctet r) ^^^ b)

theorem zeroExtend_lowOctet {v : Word} (h : highOctet v = 0#8) : (lowOctet v).zeroExtend 16 = v := by
  have hv := word_eq_xor v
  have hzero : (0#8).zeroExtend 16 <<< 8 = 0#16 := by decide
  rw [h, hzero, BitVec.zero_xor] at hv
  exact hv.symm

theorem crcStep_crcUnstep (r : Word) (b : Octet) : crcStep (crcUnstep r b) b = r := by
  have hhigh : highOctet (r ^^^ crcStep 0#16 (crcUnfold (highOctet r))) = 0#8 := by
    rw [highOctet_xor, highOctet_crcStep_crcUnfold, BitVec.xor_self]
  rw [crcStep_eq_highOctet_xor, crcUnstep, highOctet_joinOctets, lowOctet_joinOctets, zeroExtend_lowOctet hhigh]
  simp only [BitVec.xor_assoc, BitVec.xor_self, BitVec.xor_zero]

/-- Settles O15: `crcUnstep` gives the accumulator for a result. -/
theorem crcUpdateIsBijective : Obligations.CrcUpdateIsBijective :=
  ⟨fun b _ _ h => crcStep_injective b h, fun b r => ⟨crcUnstep r b, crcStep_crcUnstep r b⟩,
    fun c _ _ h => crcStep_injective_octet c h⟩

/-! ## The bit-serial procedure (40_crc.md R75) -/

/-- What a round of the procedure adds to the shifted value. -/
def crcFeedback (bit : Bool) : Word := if bit then 0x8408#16 else 0#16

theorem crcFeedback_xor : ∀ a b : Bool, crcFeedback (a ^^ b) = crcFeedback a ^^^ crcFeedback b := by decide

theorem crcBit_eq_xor (v : Word) : crcBit v = v >>> 1 ^^^ crcFeedback (v.getLsbD 0) := by
  unfold crcBit crcFeedback
  split
  · rfl
  · exact BitVec.xor_zero.symm

theorem crcBit_xor (v w : Word) : crcBit (v ^^^ w) = crcBit v ^^^ crcBit w := by
  simp only [crcBit_eq_xor, BitVec.ushiftRight_xor_distrib, BitVec.getLsbD_xor, crcFeedback_xor]
  ac_rfl

theorem crcBitSerial_xorLinear : XorLinear crcBitSerial := fun c1 c2 b1 b2 => by
  have hin : c1 ^^^ c2 ^^^ (b1 ^^^ b2).zeroExtend 16 = (c1 ^^^ b1.zeroExtend 16) ^^^ (c2 ^^^ b2.zeroExtend 16) := by
    simp only [BitVec.setWidth_xor]
    ac_rfl
  simp only [crcBitSerial, hin, crcBit_xor]

/-- Settles O16: both are linear, move the high octet down, and fold each octet into zero alike. -/
theorem crcUpdateEqualsBitSerial : Obligations.CrcUpdateEqualsBitSerial := by
  have hfold : ∀ x : Octet, crcStep 0#16 x = crcBitSerial 0#16 x := by decide
  intro crc b
  rw [crcBitSerial_xorLinear.eq_highOctet_xor (by decide) (by decide) crc b, ← hfold]
  exact crcStep_eq_highOctet_xor crc b

end Sys2Proof.Machine

/-! The decoder's obligations (30_encoding.md): decoding and encoding undo each other, the counts of operand octets, and
what a decoding depends on; and the step's (10_state.md R15, 20_memory.md R38): the call performed, the idle step, and
the refusal of a call whose context or sink is in use. -/

namespace Sys2Proof.Machine

/-! ## Decoding undoes encoding (30_encoding.md sections 3, 4, 7) -/

theorem decodeStuff_of_lit {b : Octet} (h : b ≠ escOctet ∧ b ≠ flagOctet) : decodeStuff b = .stuffLit b := by
  rw [decodeStuff, stuffCase_eq_lit.mpr h]

theorem decodeRx_of_dataEsc {ctx : Nat} {b : Octet} (h : b ≠ flagOctet) :
    decodeRx ctx true b = .rxDataEsc ctx b := by
  rw [decodeRx, rxCase_eq_dataEsc.mpr ⟨rfl, h⟩]

theorem decodeRx_of_data {ctx : Nat} {b : Octet} (hflag : b ≠ flagOctet) (hesc : b ≠ escOctet) :
    decodeRx ctx false b = .rxData ctx b := by
  rw [decodeRx, rxCase_eq_data.mpr ⟨rfl, hflag, hesc⟩]

/-- Settles O1: the rows without a default hold by computation, a default row by the octets it stands for. -/
theorem decodeOfEncodeIsIdentity : Obligations.DecodeOfEncodeIsIdentity := by
  intro i hwf
  cases i with
  | crcUpdate crc b => exact congrArg (fun v => Decoded.instr (.crcUpdate v b)) (joinOctets_octets crc)
  | stuffLit b => exact congrArg Decoded.instr (decodeStuff_of_lit (by simpa [Instr.wf] using hwf))
  | rxDataEsc ctx b => exact congrArg Decoded.instr (decodeRx_of_dataEsc (by simpa [Instr.wf] using hwf))
  | rxData ctx b =>
    obtain ⟨hesc, hflag⟩ : b ≠ escOctet ∧ b ≠ flagOctet := by simpa [Instr.wf] using hwf
    exact congrArg Decoded.instr (decodeRx_of_data hflag hesc)
  | stuffEsc7D | stuffEsc7E | sendFrame | rxInit | rxFlag | rxFlagEsc | rxEsc => rfl

/-! ## Encoding undoes decoding -/

/-- The row of an octet at the stuffer is well formed, the stuffer's, and encodes as that octet. -/
theorem decodeStuff_spec (b : Octet) :
    (decodeStuff b).wf = true ∧ (decodeStuff b).port = .stuff ∧ encode (decodeStuff b) = [b] := by
  unfold decodeStuff
  split
  case h_1 h => exact ⟨by simpa [Instr.wf] using stuffCase_eq_lit.mp h, rfl, rfl⟩
  case h_2 h => exact ⟨rfl, rfl, by rw [stuffCase_eq_esc7D.mp h]; rfl⟩
  case h_3 h => exact ⟨rfl, rfl, by rw [stuffCase_eq_esc7E.mp h]; rfl⟩

/-- The row of an octet at a receiver is well formed, that receiver's, encodes as that octet, and requires the flag it
was read with. -/
theorem decodeRx_spec (ctx : Nat) (e : Bool) (b : Octet) :
    (decodeRx ctx e b).wf = true ∧ (decodeRx ctx e b).port = .rxOctet ctx ∧ encode (decodeRx ctx e b) = [b] ∧
      (decodeRx ctx e b).escapeBefore = e := by
  unfold decodeRx
  split
  case h_1 h => obtain ⟨rfl, rfl⟩ := rxCase_eq_flag.mp h; exact ⟨rfl, rfl, rfl, rfl⟩
  case h_2 h => obtain ⟨rfl, rfl⟩ := rxCase_eq_flagEsc.mp h; exact ⟨rfl, rfl, rfl, rfl⟩
  case h_3 h => obtain ⟨rfl, rfl⟩ := rxCase_eq_esc.mp h; exact ⟨rfl, rfl, rfl, rfl⟩
  case h_4 h =>
    obtain ⟨rfl, hflag⟩ := rxCase_eq_dataEsc.mp h
    exact ⟨by simpa [Instr.wf] using hflag, rfl, rfl, rfl⟩
  case h_5 h =>
    obtain ⟨rfl, hflag, hesc⟩ := rxCase_eq_data.mp h
    exact ⟨by simp [Instr.wf, hflag, hesc], rfl, rfl, rfl⟩

/-- Settles O2, by the interface: each takes one form of operands, and `decodeStuff_spec` and `decodeRx_spec` tell of
the two that have several rows. -/
theorem encodeOfDecodeIsIdentity : Obligations.EncodeOfDecodeIsIdentity := by
  intro port esc octets i h
  unfold decode at h
  cases port with
  | crcUpdate =>
    simp only at h
    split at h <;> cases h
    exact ⟨rfl, rfl, by simp [encode], fun _ hport => by cases hport⟩
  | stuff =>
    simp only at h
    split at h <;> cases h
    obtain ⟨hwf, hport, henc⟩ := decodeStuff_spec ‹_›
    exact ⟨hwf, hport, henc, fun _ hport => by cases hport⟩
  | txFrame sink => cases h; exact ⟨rfl, rfl, rfl, fun _ hport => by cases hport⟩
  | rxInit ctx =>
    simp only at h
    split at h <;> cases h
    exact ⟨rfl, rfl, rfl, fun _ hport => by cases hport⟩
  | rxOctet ctx =>
    simp only at h
    split at h <;> cases h
    obtain ⟨hwf, hport, henc, hesc⟩ := decodeRx_spec ctx esc ‹_›
    exact ⟨hwf, hport, henc, fun _ _ => hesc⟩

/-- Settles O3, by computation. -/
theorem writtenOutWordsDecode : Obligations.WrittenOutWordsDecode := by
  unfold Obligations.WrittenOutWordsDecode
  decide

/-- Settles O4: each interface's one accepted pattern has the excluded length. -/
theorem wrongOperandCountIsRejected : Obligations.WrongOperandCountIsRejected := by
  intro esc octets ctx
  refine ⟨fun h => ?_, fun h => ?_, fun h => ?_, fun h => ?_⟩
  all_goals
    unfold decode
    simp only
    split
    · simp at h
    · rfl

/-! ## What a decoding sees of the state (20_memory.md section 10) -/

/-- The flag a decoding sees at a receiver is the context's, or false where there is no context. -/
theorem escapeSeen_rxOctet_eq_getD (s : State) (ctx : Nat) :
    escapeSeen s (.rxOctet ctx) = ((s.context? ctx).map (fun c => c.escapeActive)).getD false := by
  cases h : s.context? ctx <;> simp [escapeSeen, h]

/-- The flag a decoding sees is determined by the flags of the contexts. -/
theorem escapeSeen_congr {s s' : State}
    (h : ∀ ctx, (s'.context? ctx).map (fun c => c.escapeActive) = (s.context? ctx).map (fun c => c.escapeActive))
    (port : Interface) : escapeSeen s' port = escapeSeen s port := by
  cases port with
  | rxOctet ctx => rw [escapeSeen_rxOctet_eq_getD, escapeSeen_rxOctet_eq_getD, h]
  | crcUpdate | stuff | txFrame | rxInit => rfl

theorem unfinished_congr {s s' : State} (h : s'.events = s.events) (call : Call) :
    unfinished s' call = unfinished s call := by
  unfold unfinished
  rw [h]

/-- Whether a call is in conflict is determined by the operations performed. -/
theorem conflict_congr {s s' : State} (h : s'.events = s.events) (call : Call) :
    conflict s' call = conflict s call := by
  unfold conflict
  rw [unfinished_congr h]

/-- What a fetched operation was decoded from. -/
theorem fetch_eq_run {s t : State} {i : Instr} (h : fetch s = .run i t) :
    ∃ call rest, s.pending = call :: rest ∧ conflict s call = none ∧
      decode call.port (escapeSeen s call.port) call.octets = .instr i ∧ t = { s with pending := rest } := by
  unfold fetch at h
  split at h
  · cases h
  · split at h
    · cases h
    · split at h
      · cases h
      · cases h
        exact ⟨_, _, ‹_›, ‹_›, ‹_›, rfl⟩

/-- The converse of `fetch_eq_run`. -/
theorem fetch_of_decoded {s : State} {call : Call} {rest : List Call} {i : Instr} (hp : s.pending = call :: rest)
    (hc : conflict s call = none) (hd : decode call.port (escapeSeen s call.port) call.octets = .instr i) :
    fetch s = .run i { s with pending := rest } := by
  simp only [fetch, hp, hc, hd]

/-- Settles O5: the call taken, its conflict and its decoding agree in the two states. -/
theorem decodingDependsOnFlagsOnly : Obligations.DecodingDependsOnFlagsOnly := by
  intro s s' hpending hevents hflags i t h
  obtain ⟨call, rest, hp, hc, hd, rfl⟩ := fetch_eq_run h
  refine ⟨_, fetch_of_decoded (hpending.trans hp) ?_ ?_, rfl⟩
  · rwa [conflict_congr hevents]
  · rwa [escapeSeen_congr hflags]

/-! ## The step -/

/-- Settles O6: `step_of_decoded`. -/
theorem stepPerformsNextCall : Obligations.StepPerformsNextCall := fun _ _ _ _ hp hc hd => step_of_decoded hp hc hd

/-- Settles O7: with nothing presented the fetch is idle. -/
theorem idleStepKeepsState : Obligations.IdleStepKeepsState := by
  intro s h
  simp only [step, fetch, h]

/-- A call whose resource an earlier call, not yet ended, is using is in conflict over it (log 13). -/
theorem conflict_of_unfinished {s : State} {call : Call} {r : Resource} {k : Nat} {e : Event}
    (hr : resourceOfPort call.port = some r) (hk : k ∈ call.during) (he : s.events.reverse[k]? = some e)
    (hre : resourceOfEvent e = some r) : conflict s call = some r := by
  have hmem : e ∈ unfinished s call := List.mem_filterMap.mpr ⟨k, hk, he⟩
  have hany : (unfinished s call).any (fun e => resourceOfEvent e == some r) = true :=
    List.any_eq_true.mpr ⟨e, hmem, by simp [hre]⟩
  simp only [conflict, hr, if_pos hany]

/-- A call in conflict is refused (20_memory.md R38). -/
theorem step_of_conflict {s : State} {call : Call} {rest : List Call} {r : Resource} (hp : s.pending = call :: rest)
    (hc : conflict s call = some r) : step s = .refused (.unserialised r) := by
  simp only [step, fetch, hp, hc]

/-- Settles O9: the call and the event use the context. -/
theorem unserialisedContextUseIsRefused : Obligations.UnserialisedContextUseIsRefused := by
  intro s ctx k call rest e hp hport hk he hev
  refine step_of_conflict hp (conflict_of_unfinished ?_ hk he ?_)
  · rcases hport with h | h <;> rw [h] <;> rfl
  · rcases hev with rfl | ⟨f, st, rfl⟩ <;> rfl

/-- Settles O10: the call and the event use the sink. -/
theorem overlappingSendFramesAreRefused : Obligations.OverlappingSendFramesAreRefused := by
  intro s sink k call rest octets r hp hport hk he
  exact step_of_conflict hp (conflict_of_unfinished (by rw [hport]; rfl) hk he rfl)

end Sys2Proof.Machine

/-! The invariant (10_state.md section 5; 20_memory.md sections 4 and 5): the octets a context holds, how a case of the
receiver moves a context's registers, that every step keeps the invariant, and that from a sound state every octet
completes and no step faults. -/

namespace Sys2Proof.Machine

/-! ## The octets a context holds (10_state.md R17) -/

theorem Context.holds_nil {c : Context} (h : c.position = 0) : c.Holds [] := ⟨h, fun _ hk => by cases hk⟩

/-- What a context holds is determined by its position and buffer. -/
theorem Context.Holds.congr {c c' : Context} {xs : List Octet} (h : c.Holds xs) (hp : c'.position = c.position)
    (hb : c'.buffer = c.buffer) : c'.Holds xs := ⟨hp.trans h.1, fun k hk => hb ▸ h.2 k hk⟩

/-- A context holds one sequence only. -/
theorem Context.Holds.unique {c : Context} {xs ys : List Octet} (hx : c.Holds xs) (hy : c.Holds ys) : xs = ys := by
  have hlen : xs.length = ys.length := hx.1.symm.trans hy.1
  apply List.ext_getElem? fun k => ?_
  by_cases hk : k < xs.length
  · rw [← hx.2 k hk, ← hy.2 k (hlen ▸ hk)]
  · rw [List.getElem?_eq_none (by omega), List.getElem?_eq_none (by omega)]

/-- Storing at `position` and advancing appends the octet to those held (42_receiver.md R105). -/
theorem Context.Holds.append {c c' : Context} {xs : List Octet} {v : Octet} (h : c.Holds xs)
    (hp : c'.position = c.position + 1) (hb : c'.buffer = Memory.write c.buffer c.position v) :
    c'.Holds (xs ++ [v]) := by
  obtain ⟨hlen, hread⟩ := h
  refine ⟨by simp [hp, hlen], fun k hk => ?_⟩
  rw [hb, Memory.read_write, hlen]
  by_cases hkl : xs.length = k
  · subst hkl
    simp
  · have hlt : k < xs.length := by simp at hk; omega
    rw [if_neg hkl, hread k hlt, List.getElem?_append_left hlt]

/-- The octet two behind the cursor is the second last one held. -/
theorem Context.Holds.read_two_behind {c : Context} {xs : List Octet} (h : c.Holds xs) :
    ∃ x, 2 ≤ c.position → Memory.read c.buffer (c.position - 2) = some x := by
  by_cases h2 : 2 ≤ c.position
  · have hlt : c.position - 2 < xs.length := by have := h.1; omega
    exact ⟨xs[c.position - 2], fun _ => by rw [h.2 _ hlt, List.getElem?_eq_getElem hlt]⟩
  · exact ⟨0#8, fun h2' => absurd h2' h2⟩

theorem exists_eq_append_pair {α : Type} {xs : List α} (h : 2 ≤ xs.length) : ∃ p lo hi, xs = p ++ [lo, hi] := by
  obtain ⟨ys, hi, rfl⟩ := List.eq_nil_or_concat xs |>.resolve_left (by rintro rfl; simp at h)
  obtain ⟨p, lo, rfl⟩ := List.eq_nil_or_concat ys |>.resolve_left (by rintro rfl; simp at h)
  exact ⟨p, lo, hi, by simp⟩

/-! ## How an operation moves a context's registers -/

/-- The ways an operation moves a context's registers and buffer (10_state.md section 2): it keeps them; it resets them,
after one store or none; or it stores at `position`, folds the octet two behind and advances. -/
def Context.Moves (cfg : Config) (c c' : Context) : Prop :=
  (c'.position = c.position ∧ c'.checksum = c.checksum ∧ c'.buffer = c.buffer) ∨
  (c'.position = 0 ∧ c'.checksum = crcInit ∧
    (c'.buffer = c.buffer ∨
      (c.position < cfg.maxFrameLength ∧ ∃ v, c'.buffer = Memory.write c.buffer c.position v))) ∨
  (c'.position = c.position + 1 ∧ c.position + 1 < cfg.maxFrameLength ∧
    (∃ v, c'.buffer = Memory.write c.buffer c.position v) ∧
    ∃ x, (2 ≤ c.position → Memory.read c.buffer (c.position - 2) = some x) ∧ c'.checksum = foldedBy c x)

theorem Context.Moves.kept {cfg : Config} {c c' : Context} (hp : c'.position = c.position)
    (hs : c'.checksum = c.checksum) (hb : c'.buffer = c.buffer) : c.Moves cfg c' := .inl ⟨hp, hs, hb⟩

theorem Context.moves_reinit (cfg : Config) (c : Context) : c.Moves cfg c.reinit := .inr (.inl ⟨rfl, rfl, .inl rfl⟩)

/-- A data case moves the registers. -/
theorem storeData_moves {cfg : Config} {c c' : Context} {v : Octet} {st : RxStatus}
    (h : storeData cfg c v = .ok (c', st)) : c.Moves cfg c' := by
  obtain ⟨hlt, -, hbuf, ⟨-, hp, hs, -⟩ | ⟨hne, hp, -, hx⟩⟩ := storeData_eq_ok h
  · exact .inr (.inl ⟨hp, hs, .inr ⟨hlt, v, hbuf⟩⟩)
  · exact .inr (.inr ⟨hp, by omega, ⟨v, hbuf⟩, hx⟩)

/-- Every case of the receiver moves the registers of its context. -/
theorem RxEffect.moves {cfg : Config} {ctx : Nat} {i : Instr} {c c' : Context} {f : Option (List Octet)}
    {st : RxStatus} (h : RxEffect cfg ctx i c c' f st) : c.Moves cfg c' := by
  cases h with
  | flag => exact c.moves_reinit cfg
  | flagEsc =>
    cases hpol : cfg.escFlagPolicy with
    | cancelOnly => exact .kept rfl rfl rfl
    | abortReset => exact c.moves_reinit cfg
  | esc => exact .kept rfl rfl rfl
  | dataEsc _ _ hs =>
    have hmoves : c.clearEscape.Moves cfg c' := storeData_moves hs
    exact hmoves
  | data _ _ _ hs => exact storeData_moves hs

/-- Any operation moves the registers of a constructed context. -/
theorem exec_moves {i : Instr} {s t : State} {ctx : Nat} {c c' : Context} (hc : s.context? ctx = some c)
    (h : exec i s = .next t) (hc' : t.context? ctx = some c') : c.Moves s.cfg c' := by
  rcases exec_context?_cases hc h hc' with ⟨-, rfl | rfl⟩ | ⟨f, st, he⟩
  · exact .kept rfl rfl rfl
  · exact c.moves_reinit s.cfg
  · exact he.moves

/-- Settles O49: the three ways of `Context.Moves`. -/
theorem positionMovesByOneOrToZero : Obligations.PositionMovesByOneOrToZero := by
  intro i s t ctx c c' hc h hc'
  rcases exec_moves hc h hc' with ⟨hp, hs, -⟩ | ⟨hp, hs, -⟩ | ⟨hp, hlt, -, x, hx, hs⟩
  · exact .inl ⟨hp, hs⟩
  · exact .inr (.inl ⟨hp, hs⟩)
  · refine .inr (.inr ⟨hp, hp ▸ hlt, fun h2 => ?_, fun y h2 hy => ?_⟩)
    · rw [hs, foldedBy, if_neg (by omega)]
    · rw [hs, foldedBy, if_pos h2, Option.some.inj ((hx h2).symm.trans hy)]

/-! ## A context's invariant is kept -/

/-- A write inside the buffer keeps the buffer sound (20_memory.md R34). -/
theorem Context.BufferSound.write {cfg : Config} {c c' : Context} {a : Nat} {v : Octet} (h : c.BufferSound cfg)
    (ha : a < cfg.maxFrameLength) (hb : c'.buffer = Memory.write c.buffer a v) : c'.BufferSound cfg := by
  obtain ⟨hwf, hinside⟩ := h
  unfold Context.BufferSound
  rw [hb]
  refine ⟨Memory.wf_write hwf a v, fun cell hcell => ?_⟩
  rcases Memory.mem_write hcell with rfl | hold
  · exact ha
  · exact hinside cell hold

/-- A context in its reset state, with a sound buffer, is sound (10_state.md R22). -/
theorem Context.Inv.of_reset {cfg : Config} {c : Context} (hp : c.position = 0) (hs : c.checksum = crcInit)
    (hb : c.BufferSound cfg) (hroom : 0 < cfg.maxFrameLength) : c.Inv cfg :=
  ⟨hp ▸ hroom, hb, [], Context.holds_nil hp, hs⟩

/-- Folding the second last octet makes the checksum trail one octet further (10_state.md R18). -/
theorem Context.ChecksumTrails.append {c c' : Context} {v x : Octet} (h : c.ChecksumTrails)
    (hp : c'.position = c.position + 1) (hb : c'.buffer = Memory.write c.buffer c.position v)
    (hx : 2 ≤ c.position → Memory.read c.buffer (c.position - 2) = some x) (hs : c'.checksum = foldedBy c x) :
    c'.ChecksumTrails := by
  obtain ⟨xs, hholds, hsum⟩ := h
  refine ⟨xs ++ [v], hholds.append hp hb, ?_⟩
  obtain ⟨hlen, hread⟩ := hholds
  rw [hs, foldedBy]
  split
  case isTrue h2 =>
    have hlast : xs[xs.length - 2]? = some x := by rw [← hread _ (by omega), ← hlen, hx h2]
    have htake : (xs ++ [v]).take ((xs ++ [v]).length - 2) = xs.take (xs.length - 2) ++ [x] := by
      have hlen' : (xs ++ [v]).length - 2 = xs.length - 2 + 1 := by simp; omega
      rw [hlen', List.take_append_of_le_length (by omega), List.take_add_one, hlast]
      rfl
    rw [htake, crc16_append_singleton, hsum]
  case isFalse h2 =>
    have hnil : (xs ++ [v]).length - 2 = 0 := by simp; omega
    have hnil' : xs.length - 2 = 0 := by omega
    rw [hsum, hnil, hnil']
    rfl

/-- However the registers move, a sound context stays sound. -/
theorem Context.Inv.moves {cfg : Config} {c c' : Context} (hc : c.Inv cfg) (h : c.Moves cfg c') : c'.Inv cfg := by
  obtain ⟨hinside, hbuf, htrails⟩ := hc
  rcases h with ⟨hp, hs, hb⟩ | ⟨hp, hs, hb | ⟨hlt, v, hb⟩⟩ | ⟨hp, hlt, ⟨v, hb⟩, x, hx, hs⟩
  · obtain ⟨xs, hholds, hsum⟩ := htrails
    exact ⟨hp ▸ hinside, by unfold Context.BufferSound; rwa [hb], xs, hholds.congr hp hb, hs.trans hsum⟩
  · exact .of_reset hp hs (by unfold Context.BufferSound; rwa [hb]) (by omega)
  · exact .of_reset hp hs (hbuf.write hlt hb) (by omega)
  · exact ⟨hp ▸ hlt, hbuf.write hinside hb, htrails.append hp hb hx hs⟩

/-- A context just constructed is sound. -/
theorem Context.inv_fresh {cfg : Config} (h : cfg.Legal) : Context.fresh.Inv cfg :=
  .of_reset rfl rfl ⟨Memory.wf_nil, fun _ hcell => by cases hcell⟩ (by have := h.1; omega)

/-! ## The machine's invariant is kept -/

theorem State.Inv.log {s : State} (h : s.Inv) (e : Event) : (s.log e).Inv :=
  ⟨h.legal, h.contextCount, h.contextsSound⟩

/-- What is presented is no part of the invariant. -/
theorem State.Inv.withPending {s : State} (h : s.Inv) (calls : List Call) : { s with pending := calls }.Inv :=
  ⟨h.legal, h.contextCount, h.contextsSound⟩

/-- Replacing a context by a sound one keeps the invariant. -/
theorem State.Inv.setContext {s : State} (h : s.Inv) (ctx : Nat) {c : Context} (hc : c.Inv s.cfg) :
    (s.setContext ctx c).Inv := by
  refine ⟨h.legal, by simpa using h.contextCount, fun k d hd => ?_⟩
  by_cases hk : k = ctx
  · subst hk
    have hlt : k < s.contexts.length := by simpa using State.context?_lt hd
    rw [State.setContext_context?_self hlt] at hd
    exact Option.some.inj hd ▸ hc
  · rw [State.setContext_context?_ne hk] at hd
    exact h.contextsSound k d hd

/-- Every operation that answers a next state keeps the invariant. -/
theorem exec_keeps_inv {i : Instr} {s t : State} (hs : s.Inv) (h : exec i s = .next t) : t.Inv := by
  rcases exec_next h with ⟨e, -, rfl⟩ | ⟨ctx, c, -, hl, hc, rfl⟩ | ⟨ctx, c, c', f, st, hc, he, rfl⟩
  · exact hs.log e
  · refine (hs.setContext ctx ?_).log _
    rcases hc with ⟨-, rfl⟩ | ⟨c0, hc0, rfl⟩
    · exact Context.inv_fresh hl
    · exact (hs.contextsSound ctx c0 hc0).moves (c0.moves_reinit s.cfg)
  · exact (hs.setContext ctx ((hs.contextsSound ctx c hc).moves he.moves)).log _

/-- Settles O53: an idle step keeps the state, any other performs an operation. -/
theorem stepKeepsInvariant : Obligations.StepKeepsInvariant := by
  intro s t hs h
  rcases step_cases h with ⟨-, rfl⟩ | ⟨call, rest, i, -, -, -, hexec⟩
  · exact hs
  · exact exec_keeps_inv (hs.withPending rest) hexec

/-! ## The state after reset (10_state.md section 9) -/

/-- A context of the state after reset is a fresh one. -/
theorem State.reset_context?_eq {ctx : Nat} {c : Context} (h : State.reset.context? ctx = some c) :
    c = Context.fresh := by
  have hmem : some c ∈ State.reset.contexts := List.mem_of_getElem? (State.context?_eq_some.mp h)
  exact Option.some.inj (List.eq_of_mem_replicate hmem)

/-- Settles O51: the contexts stand as a replicated fresh context. -/
theorem resetContextsAreReset : Obligations.ResetContextsAreReset := by
  refine ⟨fun ctx hctx => ⟨Context.fresh, ?_, rfl, rfl, rfl⟩, rfl, rfl⟩
  exact State.context?_eq_some.mpr (List.getElem?_replicate_of_lt hctx)

/-- Settles O52: the default parameters are legal and a fresh context is sound. -/
theorem resetMeetsInvariant : Obligations.ResetMeetsInvariant where
  legal := by decide
  contextCount := rfl
  contextsSound _ _ h := State.reset_context?_eq h ▸ Context.inv_fresh (by decide)

/-! ## Every octet completes, no step faults -/

/-- A sound context holds fewer than two octets, or a sequence with two octets behind the checksum. -/
theorem Context.Inv.holds_cases {cfg : Config} {c : Context} (h : c.Inv cfg) :
    c.position < 2 ∨ ∃ p lo hi, c.Holds (p ++ [lo, hi]) ∧ c.checksum = crc16 p := by
  obtain ⟨xs, hholds, hsum⟩ := h.checksumTrails
  by_cases h2 : 2 ≤ xs.length
  · obtain ⟨p, lo, hi, rfl⟩ := exists_eq_append_pair h2
    exact .inr ⟨p, lo, hi, hholds, by simpa using hsum⟩
  · exact .inl (by have := hholds.1; omega)

/-- The test at a boundary answers at a sound context. -/
theorem Context.Inv.boundary_ok {cfg : Config} {c : Context} (h : c.Inv cfg) :
    ∃ f st, boundary cfg c = .ok (f, st) := by
  rcases h.holds_cases with hlt | ⟨p, lo, hi, hholds, -⟩
  · exact ⟨_, _, boundary_of_lt_two hlt⟩
  · have hfit : p.length + 2 ≤ cfg.maxFrameLength := by
      have hpos := hholds.1
      have hinside := h.positionInside
      simp at hpos
      omega
    exact ⟨_, _, boundary_of_holds hholds hfit⟩

/-- A data case completes at a sound context. -/
theorem Context.Inv.storeData_ok {cfg : Config} {c : Context} (h : c.Inv cfg) (v : Octet) :
    ∃ c' st, storeData cfg c v = .ok (c', st) := by
  obtain ⟨xs, hholds, -⟩ := h.checksumTrails
  obtain ⟨x, hx⟩ := hholds.read_two_behind
  exact ⟨_, _, storeData_of h.positionInside hx⟩

/-- The flag is no part of a context's invariant. -/
theorem Context.Inv.clearEscape {cfg : Config} {c : Context} (h : c.Inv cfg) : c.clearEscape.Inv cfg :=
  h.moves (.kept rfl rfl rfl)

/-- Which row R97's tests select, by the octet and the flag. -/
theorem rxRow_cases (ctx : Nat) (e : Bool) (b : Octet) :
    (b = 0x7E#8 ∧ e = false ∧ rxRow ctx e b = .rxFlag ctx) ∨
    (b = 0x7E#8 ∧ e = true ∧ rxRow ctx e b = .rxFlagEsc ctx) ∨
    (b = 0x7D#8 ∧ e = false ∧ rxRow ctx e b = .rxEsc ctx) ∨
    (b ≠ 0x7E#8 ∧ e = true ∧ rxRow ctx e b = .rxDataEsc ctx b) ∨
    (b ≠ 0x7E#8 ∧ b ≠ 0x7D#8 ∧ e = false ∧ rxRow ctx e b = .rxData ctx b) := by
  by_cases hflag : b = 0x7E#8
  · cases e <;> simp [rxRow, hflag]
  · by_cases hesc : b = 0x7D#8 <;> cases e <;> simp [rxRow, hflag, hesc]

theorem rxRow_port (ctx : Nat) (e : Bool) (b : Octet) : (rxRow ctx e b).port = .rxOctet ctx := by
  rcases rxRow_cases ctx e b with ⟨-, -, h⟩ | ⟨-, -, h⟩ | ⟨-, -, h⟩ | ⟨-, -, h⟩ | ⟨-, -, -, h⟩ <;> rw [h] <;> rfl

/-- The row that an octet selects has an effect on every sound context. -/
theorem Context.Inv.exists_rxEffect {cfg : Config} {c : Context} (h : c.Inv cfg) (ctx : Nat) (b : Octet) :
    ∃ c' f st, RxEffect cfg ctx (rxRow ctx c.escapeActive b) c c' f st := by
  rcases rxRow_cases ctx c.escapeActive b with ⟨-, he, hrow⟩ | ⟨-, he, hrow⟩ | ⟨-, he, hrow⟩ | ⟨hflag, he, hrow⟩ |
    ⟨hflag, hesc, he, hrow⟩
  all_goals rw [hrow]
  · obtain ⟨f, st, hb⟩ := h.boundary_ok
    exact ⟨_, f, st, .flag he hb⟩
  · exact ⟨_, _, _, .flagEsc he⟩
  · exact ⟨_, _, _, .esc he⟩
  · obtain ⟨c', st, hs⟩ := h.clearEscape.storeData_ok (unescape b)
    exact ⟨c', none, st, .dataEsc he hflag hs⟩
  · obtain ⟨c', st, hs⟩ := h.storeData_ok b
    exact ⟨c', none, st, .data he hflag hesc hs⟩

/-- Settles O56: the selected row has an effect, so it completes, and it keeps the invariant. -/
theorem everyOctetCompletes : Obligations.EveryOctetCompletes := by
  intro s ctx c b hs hc
  obtain ⟨c', f, st, he⟩ := (hs.contextsSound ctx c hc).exists_rxEffect ctx b
  have hexec := exec_of_rxEffect hc he
  exact ⟨_, f, st, hexec, rfl, exec_keeps_inv hs hexec⟩

/-- A case of the receiver faults only where its body does, on a constructed context. -/
theorem rxBegin_ne_fault {ctx : Nat} {row : RxCase} {b : Octet} {s : State} {f : Fault}
    {body : Context → Host.Outcome State Fault Refusal}
    (h : ∀ c, s.context? ctx = some c → body c ≠ .fault f) : rxBegin ctx row b s body ≠ .fault f := by
  unfold rxBegin
  split
  · simp
  · split
    · exact h _ ‹_›
    · simp

/-- No data case faults at a sound context. -/
theorem rxStore_ne_fault {ctx : Nat} {s : State} {c : Context} (h : c.Inv s.cfg) (v : Octet) (f : Fault) :
    rxStore ctx c v s ≠ .fault f := by
  obtain ⟨c', st, hs⟩ := h.storeData_ok v
  simp [rxStore, hs, rxEnd]

/-- No operation faults in a sound state. -/
theorem exec_ne_fault {s : State} (hs : s.Inv) (i : Instr) (f : Fault) : exec i s ≠ .fault f := by
  cases i with
  | crcUpdate crc b => simp [exec_crcUpdate]
  | stuffLit b | stuffEsc7D | stuffEsc7E =>
    simp only [exec, execStuffLit, execStuffEsc7D, execStuffEsc7E, stuffEnd]
    split <;> simp
  | sendFrame sink p =>
    obtain ⟨octets, r, hsend⟩ := exec_sendFrame_uniform s.cfg p
    simp [hsend s sink rfl]
  | rxInit ctx =>
    simp only [exec, execRxInit]
    split
    · split <;> simp
    · simp
  | rxFlag ctx =>
    refine rxBegin_ne_fault fun c hc => ?_
    obtain ⟨frameOut, st, hb⟩ := (hs.contextsSound ctx c hc).boundary_ok
    simp [hb, rxEnd]
  | rxFlagEsc ctx | rxEsc ctx => exact rxBegin_ne_fault fun c _ => by simp [rxEnd]
  | rxDataEsc ctx b =>
    exact rxBegin_ne_fault fun c hc => rxStore_ne_fault (hs.contextsSound ctx c hc).clearEscape (unescape b) f
  | rxData ctx b => exact rxBegin_ne_fault fun c hc => rxStore_ne_fault (hs.contextsSound ctx c hc) b f

/-- Settles O54: `exec_ne_fault` on the state with the call taken. -/
theorem stepNeverFaults : Obligations.StepNeverFaults := by
  intro s f hs
  unfold step
  split
  case h_1 => simp
  case h_2 => simp
  case h_3 i t hfetch =>
    obtain ⟨call, rest, -, -, -, rfl⟩ := fetch_eq_run hfetch
    exact exec_ne_fault (hs.withPending rest) i f

end Sys2Proof.Machine

/-! The rest of the stuffer's and the encoder's obligations (41_stuffer_encoder.md sections 1 to 3): where the reserved
octets stand in what `STUFF` returns and in a frame, the length of a frame, and what its body de-stuffs to. -/

namespace Sys2Proof.Machine

/-! ## The reserved octets of a wire form -/

/-- `0x7E` is in no octet's wire form. -/
theorem flag_not_mem_wireForm (b : Octet) : 0x7E#8 ∉ wireForm b := by
  by_cases h : b = 0x7D#8 ∨ b = 0x7E#8
  · rw [wireForm_of_reserved h]
    rcases h with rfl | rfl <;> decide
  · obtain ⟨hesc, hflag⟩ := not_or.mp h
    rw [wireForm_of_ordinary hesc hflag, List.mem_singleton]
    exact Ne.symm hflag

/-- `0x7D` stands in a wire form only as the first of two octets. -/
theorem eq_zero_of_wireForm_getElem?_esc {b : Octet} {k : Nat} (hk : (wireForm b)[k]? = some 0x7D#8) :
    k = 0 ∧ (wireForm b).length = 2 := by
  by_cases h : b = 0x7D#8 ∨ b = 0x7E#8
  · rw [wireForm_of_reserved h] at hk ⊢
    match k, hk with
    | 0, _ => exact ⟨rfl, rfl⟩
    | 1, hk => rcases h with rfl | rfl <;> simp at hk
    | _ + 2, hk => simp at hk
  · obtain ⟨hesc, hflag⟩ := not_or.mp h
    rw [wireForm_of_ordinary hesc hflag] at hk
    match k, hk with
    | 0, hk => exact absurd (Option.some.inj hk) hesc
    | _ + 1, hk => simp at hk

/-- What `STUFF` returns is the wire form of an octet. -/
theorem StatelessEffect.stuffed_eq_wireForm {cfg : Config} {i : Instr} {octets : List Octet}
    (h : StatelessEffect cfg i (.stuffed octets)) : ∃ b, octets = wireForm b := by
  cases h with
  | lit b => exact ⟨b, stuff_eq_wireForm b⟩
  | esc7D => exact ⟨escOctet, stuff_eq_wireForm escOctet⟩
  | esc7E => exact ⟨flagOctet, stuff_eq_wireForm flagOctet⟩

/-- Settles O18: only `STUFF` logs stuffed octets, and they are a wire form. -/
theorem stuffedOctetsHoldNoFlag : Obligations.StuffedOctetsHoldNoFlag := by
  intro i s octets h
  obtain ⟨b, rfl⟩ : ∃ b, octets = wireForm b := by
    rcases exec_next h with ⟨e, he, ht⟩ | ⟨ctx, c, -, -, -, ht⟩ | ⟨ctx, c, c', f, st, -, -, ht⟩
    · have hevents := congrArg State.events ht
      obtain rfl : Event.stuffed octets = e := by simpa using hevents
      exact he.stuffed_eq_wireForm
    all_goals
      have hevents := congrArg State.events ht
      simp at hevents
  exact ⟨flag_not_mem_wireForm b, fun k hk => eq_zero_of_wireForm_getElem?_esc hk⟩

/-- Settles O19: stuffing is the wire form, whose de-stuffing is `destuff_flatMap_wireForm`. -/
theorem destuffUndoesStuff : Obligations.DestuffUndoesStuff := by
  intro xs
  rw [funext stuff_eq_wireForm]
  exact destuff_flatMap_wireForm xs

/-! ## The frame (41_stuffer_encoder.md sections 2 and 3) -/

/-- Settles O21: `exec_sendFrame_of_tooLong`. -/
theorem longPayloadIsRejected : Obligations.LongPayloadIsRejected := fun _ sink _ hreject hlong =>
  exec_sendFrame_of_tooLong ⟨hreject, hlong⟩ sink

/-- The FCS of a payload as the octets sent, low octet first (41_stuffer_encoder.md R85). -/
def fcsOctets (p : List Octet) : List Octet := [(crc16 p).extractLsb' 0 8, (crc16 p).extractLsb' 8 8]

/-- A frame is the stuffed payload and FCS between two boundaries. -/
theorem wireFrame_eq (p : List Octet) :
    wireFrame p = [0x7E#8] ++ (p ++ fcsOctets p).flatMap wireForm ++ [0x7E#8] := by
  simp [wireFrame, fcsOctets]

theorem length_wireForm (b : Octet) :
    (wireForm b).length = 1 + if (b == 0x7D#8 || b == 0x7E#8) = true then 1 else 0 := by
  by_cases h : b = 0x7D#8 ∨ b = 0x7E#8
  · rw [wireForm_of_reserved h, if_pos (by simpa using h)]
    rfl
  · rw [wireForm, if_neg h, if_neg (by simpa using h)]
    rfl

theorem reservedCount_cons (b : Octet) (xs : List Octet) :
    reservedCount (b :: xs) = reservedCount xs + if (b == 0x7D#8 || b == 0x7E#8) = true then 1 else 0 :=
  List.countP_cons

/-- Stuffing adds one octet for each reserved octet. -/
theorem length_flatMap_wireForm (xs : List Octet) : (xs.flatMap wireForm).length = xs.length + reservedCount xs := by
  induction xs with
  | nil => rfl
  | cons b xs ih =>
    rw [List.flatMap_cons, List.length_append, ih, length_wireForm, reservedCount_cons, List.length_cons]
    omega

theorem reservedCount_le_length (xs : List Octet) : reservedCount xs ≤ xs.length := List.countP_le_length

theorem flag_not_mem_flatMap_wireForm (xs : List Octet) : 0x7E#8 ∉ xs.flatMap wireForm := by
  rw [List.mem_flatMap]
  rintro ⟨b, -, hb⟩
  exact flag_not_mem_wireForm b hb

/-- Settles O22: the body has no boundary octet, and one octet more than the payload and its FCS for each reserved
one. -/
theorem frameLengthAndBoundaries : Obligations.FrameLengthAndBoundaries := by
  intro s sink p octets h
  obtain rfl := h.octets_eq
  have hbody : (p ++ fcsOctets p).length = p.length + 2 := List.length_append
  have hlen : (wireFrame p).length = 4 + p.length + reservedCount (p ++ fcsOctets p) := by
    rw [wireFrame_eq, List.length_append, List.length_append, length_flatMap_wireForm, hbody, List.length_singleton]
    omega
  have hres : reservedCount (p ++ fcsOctets p) ≤ p.length + 2 := hbody ▸ reservedCount_le_length _
  have hcount : ((p ++ fcsOctets p).flatMap wireForm).count 0x7E#8 = 0 :=
    List.count_eq_zero.mpr (flag_not_mem_flatMap_wireForm _)
  refine ⟨hlen, by omega, by omega, ?_, ?_, ?_⟩
  · rw [wireFrame_eq]; rfl
  · rw [wireFrame_eq]; exact List.getLast?_concat
  · rw [wireFrame_eq, List.count_append, List.count_append, hcount]; rfl

/-- Settles O23: the body is a stuffed sequence. -/
theorem frameBodyDestuffsToPayloadAndFcs : Obligations.FrameBodyDestuffsToPayloadAndFcs := by
  intro s sink p octets h
  exact ⟨(p ++ fcsOctets p).flatMap wireForm, h.octets_eq.trans (wireFrame_eq p), flag_not_mem_flatMap_wireForm _,
    destuff_flatMap_wireForm _⟩

end Sys2Proof.Machine

/-! The receiver's remaining rules (42_receiver.md): re-initialisation, the escaped boundary, the overflow guard, the
refusals; and what each group of operations keeps and tells (10_state.md section 2; 20_memory.md sections 4 and 5;
42_receiver.md section 8; 60_exceptions.md section 1). -/

namespace Sys2Proof.Machine

/-! ## Single operations -/

/-- Settles O27: `exec_rxInit_of` at a constructed context. -/
theorem rxInitRestartsLiveContext : Obligations.RxInitRestartsLiveContext := fun _ _ c hl hc =>
  exec_rxInit_of hl (.inr ⟨c, hc, rfl⟩)

/-- Settles O32: what an escaped boundary leaves under `CANCEL_ONLY`. -/
theorem escapedBoundaryIsCancelled : Obligations.EscapedBoundaryIsCancelled := by
  intro s ctx c hc he hpol
  rw [exec_of_rxEffect hc (.flagEsc he), hpol]
  rfl

/-- Settles O33: what an escaped boundary leaves under `ABORT_RESET`. -/
theorem escapedBoundaryAbortsFrame : Obligations.EscapedBoundaryAbortsFrame := by
  intro s ctx c hc he hpol
  rw [exec_of_rxEffect hc (.flagEsc he), hpol]
  rfl

/-- A data case whose octet fills the buffer: `storeData_of` with the guard met (42_receiver.md R106). -/
theorem storeData_of_full {cfg : Config} {c : Context} {x : Octet} (hfull : c.position + 1 = cfg.maxFrameLength)
    (hx : 2 ≤ c.position → Memory.read c.buffer (c.position - 2) = some x) (v : Octet) :
    storeData cfg c v =
      .ok ({ c with position := 0, checksum := crcInit, buffer := Memory.write c.buffer c.position v },
        .frameTooLarge) := by
  rw [storeData_of (by omega) hx, advance_eq, if_pos hfull]

/-- Settles O37: `storeData_of_full` in each data case. -/
theorem overflowGuardResetsContext : Obligations.OverflowGuardResetsContext := by
  intro s ctx c b x i hc hfull hx hi
  rcases hi with ⟨rfl, he, hflag, hesc⟩ | ⟨rfl, he, hflag⟩
  · rw [exec_of_rxEffect hc (.data he hflag hesc (storeData_of_full hfull hx b)), he]
    rfl
  · rw [exec_of_rxEffect hc (.dataEsc he hflag (storeData_of_full (c := c.clearEscape) hfull hx (unescape b))), he]
    rfl

/-! ## Refusals (70_reset_and_hazards.md R141, log 12, log 14, log 15) -/

/-- A row of the receiver on a context that is not constructed is refused. -/
theorem rxBegin_of_none {ctx : Nat} {row : RxCase} {b : Octet} {s : State} (hc : s.context? ctx = none)
    (body : Context → Host.Outcome State Fault Refusal) :
    rxBegin ctx row b s body = .refused (.contextNotConstructed ctx) := by
  simp [rxBegin, hc]

/-- A row of the receiver that the flag and the octet do not select is refused. -/
theorem rxBegin_of_ne {ctx : Nat} {row : RxCase} {b : Octet} {s : State} {c : Context}
    (hc : s.context? ctx = some c) (hr : rxCase c.escapeActive b ≠ row)
    (body : Context → Host.Outcome State Fault Refusal) : rxBegin ctx row b s body = .refused .caseNotSelected := by
  simp [rxBegin, hc, hr]

/-- Every operation that comes in by a receiver's octets starts with `rxBegin`, at a row that requires its flag. -/
theorem exec_eq_rxBegin {i : Instr} {ctx : Nat} (hp : i.port = .rxOctet ctx) (s : State) :
    ∃ row b body, exec i s = rxBegin ctx row b s body ∧ ∀ e, rxCase e b = row → e = i.escapeBefore := by
  cases i with
  | crcUpdate | stuffLit | stuffEsc7D | stuffEsc7E | sendFrame | rxInit => simp [Instr.port] at hp
  | rxFlag k => cases hp; exact ⟨.flag, flagOctet, _, rfl, fun _ h => (rxCase_eq_flag.mp h).1⟩
  | rxFlagEsc k => cases hp; exact ⟨.flagEsc, flagOctet, _, rfl, fun _ h => (rxCase_eq_flagEsc.mp h).1⟩
  | rxEsc k => cases hp; exact ⟨.esc, escOctet, _, rfl, fun _ h => (rxCase_eq_esc.mp h).1⟩
  | rxDataEsc k b => cases hp; exact ⟨.dataEsc, b, _, rfl, fun _ h => (rxCase_eq_dataEsc.mp h).1⟩
  | rxData k b => cases hp; exact ⟨.data, b, _, rfl, fun _ h => (rxCase_eq_data.mp h).1⟩

/-- `RX_INIT` in a block with illegal parameters is refused (log 15). -/
theorem exec_rxInit_of_not_legal {s : State} (h : ¬s.cfg.Legal) (ctx : Nat) :
    exec (.rxInit ctx) s = .refused .illegalConfiguration := if_neg h

/-- `RX_INIT` of a number past the block's contexts is refused (log 14). -/
theorem exec_rxInit_of_length_le {s : State} {ctx : Nat} (hl : s.cfg.Legal) (h : s.contexts.length ≤ ctx) :
    exec (.rxInit ctx) s = .refused (.noSuchContext ctx) := by
  simp [exec, execRxInit, hl, List.getElem?_eq_none h]

/-- Settles O28: the two refusals of `rxBegin` and the two of `RX_INIT`. -/
theorem receiverRefusals : Obligations.ReceiverRefusals := by
  intro s ctx i
  refine ⟨fun hp hc => ?_, ?_, ?_, fun c hp hc he => ?_⟩
  · obtain ⟨row, b, body, hexec, -⟩ := exec_eq_rxBegin hp s
    rw [hexec, rxBegin_of_none hc]
  · rintro rfl hl
    exact exec_rxInit_of_not_legal hl ctx
  · rintro rfl hl hlen
    exact exec_rxInit_of_length_le hl hlen
  · obtain ⟨row, b, body, hexec, hflag⟩ := exec_eq_rxBegin hp s
    rw [hexec, rxBegin_of_ne hc fun hr => he (hflag _ hr)]

/-! ## What every operation keeps -/

theorem StatelessEffect.frameOutOf_eq_none {cfg : Config} {i : Instr} {e : Event} (h : StatelessEffect cfg i e) :
    frameOutOf e = none := by
  cases h <;> rfl

/-- Only the case of a boundary that is not escaped delivers (42_receiver.md section 8). -/
theorem RxEffect.eq_rxFlag_of_frameOut {cfg : Config} {ctx : Nat} {i : Instr} {c c' : Context} {p : List Octet}
    {st : RxStatus} (h : RxEffect cfg ctx i c c' (some p) st) :
    i = .rxFlag ctx ∧ boundary cfg c = .ok (some p, st) := by
  cases h with
  | flag _ hb => exact ⟨rfl, hb⟩

/-- An operation changes no more than one context, and adds one entry to what was put out. -/
theorem exec_keeps {i : Instr} {s t : State} (h : exec i s = .next t) :
    ∃ e, t = s.log e ∨ ∃ ctx c, t = (s.setContext ctx c).log e := by
  rcases exec_next h with ⟨e, -, ht⟩ | ⟨ctx, c, -, -, -, ht⟩ | ⟨ctx, -, c, f, st, -, -, ht⟩
  · exact ⟨e, .inl ht⟩
  · exact ⟨_, .inr ⟨ctx, c, ht⟩⟩
  · exact ⟨_, .inr ⟨ctx, c, ht⟩⟩

/-- A constructed context stays constructed when a context is replaced. -/
theorem State.exists_setContext_context? {s : State} {ctx : Nat} {c : Context} (hc : s.context? ctx = some c) (k : Nat)
    (d : Context) : ∃ c', (s.setContext k d).context? ctx = some c' := by
  by_cases hk : ctx = k
  · subst hk
    exact ⟨d, State.setContext_context?_self (State.context?_lt hc)⟩
  · exact ⟨c, (State.setContext_context?_ne hk).trans hc⟩

/-- Settles O55: an operation logs and replaces at most one context. -/
theorem parametersAndContextsPersist : Obligations.ParametersAndContextsPersist := by
  intro s t ctx h
  rcases step_cases h with ⟨-, rfl⟩ | ⟨call, rest, i, -, -, -, hexec⟩
  · exact ⟨rfl, rfl, id⟩
  · obtain ⟨e, rfl | ⟨k, d, rfl⟩⟩ := exec_keeps hexec
    · exact ⟨rfl, rfl, id⟩
    · refine ⟨rfl, List.length_set, fun ⟨c, hc⟩ => ?_⟩
      exact State.exists_setContext_context? (s := { s with pending := rest }) hc k d

/-- Settles O39: an operation of no receiver's interface is stateless. -/
theorem statelessOperationsKeepState : Obligations.StatelessOperationsKeepState := by
  intro i s t hport h
  rcases exec_next h with ⟨e, he, rfl⟩ | ⟨ctx, c, rfl, -⟩ | ⟨ctx, c, c', f, st, -, he, -⟩
  · exact ⟨rfl, rfl, rfl, ⟨e, rfl, he.frameOutOf_eq_none⟩, fun ctx c a hc => ⟨c, hc, rfl⟩⟩
  · exact absurd rfl (hport ctx).2
  · exact absurd he.port_eq (hport ctx).1

/-- Settles O45: only an effect with a `frame_out` logs one. -/
theorem frameOutOnlyFromFlag : Obligations.FrameOutOnlyFromFlag := by
  intro i s t h
  rcases exec_next h with ⟨e, he, rfl⟩ | ⟨k, c, -, -, -, rfl⟩ | ⟨k, c, c', f, st, -, he, rfl⟩
  · exact ⟨e, rfl, fun ctx p hp => by simp [he.frameOutOf_eq_none] at hp⟩
  · exact ⟨_, rfl, fun ctx p hp => by cases hp⟩
  · refine ⟨_, rfl, fun ctx p hp => ?_⟩
    cases f with
    | none => cases hp
    | some q => cases hp; exact he.eq_rxFlag_of_frameOut.1

/-! ## What a case of the receiver keeps in its context -/

/-- Replacing a context and logging changes nothing else. -/
theorem setContext_log_keeps (s : State) (ctx : Nat) (c : Context) (e : Event) :
    ((s.setContext ctx c).log e).cfg = s.cfg ∧ ((s.setContext ctx c).log e).pending = s.pending ∧
      ((s.setContext ctx c).log e).contexts.length = s.contexts.length ∧
      ∀ k, k ≠ ctx → ((s.setContext ctx c).log e).contexts[k]? = s.contexts[k]? :=
  ⟨rfl, rfl, by simp, fun k hk => by simp [Ne.symm hk]⟩

/-- The boundary and escape cases keep `position` and `checksum` or reset them; `RX.ESC` keeps them. -/
theorem RxEffect.regs_of_not_data {cfg : Config} {ctx : Nat} {i : Instr} {c c' : Context} {f : Option (List Octet)}
    {st : RxStatus} (h : RxEffect cfg ctx i c c' f st) (hi : i = .rxFlag ctx ∨ i = .rxFlagEsc ctx ∨ i = .rxEsc ctx) :
    c'.buffer = c.buffer ∧
      ((c'.position = c.position ∧ c'.checksum = c.checksum) ∨ (c'.position = 0 ∧ c'.checksum = crcInit)) ∧
      (i = .rxEsc ctx → c'.position = c.position ∧ c'.checksum = c.checksum) := by
  cases h with
  | flag => exact ⟨rfl, .inr ⟨rfl, rfl⟩, fun h => by cases h⟩
  | flagEsc =>
    refine ⟨Context.escapedBoundary_buffer _ _, ?_, fun h => by cases h⟩
    cases cfg.escFlagPolicy with
    | cancelOnly => exact .inl ⟨rfl, rfl⟩
    | abortReset => exact .inr ⟨rfl, rfl⟩
  | esc => exact ⟨rfl, .inl ⟨rfl, rfl⟩, fun _ => ⟨rfl, rfl⟩⟩
  | dataEsc | data => simp at hi

/-- What `RX_INIT` of a constructed context leads to (42_receiver.md R96). -/
theorem exec_rxInit_next {s t : State} {ctx : Nat} {c : Context} (hc : s.context? ctx = some c)
    (h : exec (.rxInit ctx) s = .next t) : t = (s.setContext ctx c.reinit).log (.rxInit ctx) := by
  by_cases hl : s.cfg.Legal
  · rw [exec_rxInit_of hl (.inr ⟨c, hc, rfl⟩)] at h
    cases h
    rfl
  · rw [exec_rxInit_of_not_legal hl] at h
    cases h

/-- An operation that stores nothing replaces its context by one with the same buffer and with `position` and
`checksum` kept or reset. -/
theorem exec_nonStoring_next {i : Instr} {ctx : Nat} {s t : State} {c : Context}
    (hi : i = .rxInit ctx ∨ i = .rxFlag ctx ∨ i = .rxFlagEsc ctx ∨ i = .rxEsc ctx) (hc : s.context? ctx = some c)
    (h : exec i s = .next t) :
    ∃ c' e, t = (s.setContext ctx c').log e ∧ c'.buffer = c.buffer ∧
      ((c'.position = c.position ∧ c'.checksum = c.checksum) ∨ (c'.position = 0 ∧ c'.checksum = crcInit)) ∧
      (i = .rxEsc ctx → c'.position = c.position ∧ c'.checksum = c.checksum) := by
  rcases hi with rfl | hi
  · exact ⟨c.reinit, _, exec_rxInit_next hc h, rfl, .inr ⟨rfl, rfl⟩, fun h => by cases h⟩
  · have hp : i.port = .rxOctet ctx := by rcases hi with rfl | rfl | rfl <;> rfl
    obtain ⟨c', f, st, he, ht⟩ := exec_rx_next hp hc h
    exact ⟨c', _, ht, he.regs_of_not_data hi⟩

/-- Settles O40: `exec_nonStoring_next`. -/
theorem nonStoringRowsKeepBuffers : Obligations.NonStoringRowsKeepBuffers := by
  intro i ctx s t c hi hc h
  obtain ⟨c', e, rfl, hbuf, hregs⟩ := exec_nonStoring_next hi hc h
  obtain ⟨hcfg, hpending, hlen, hothers⟩ := setContext_log_keeps s ctx c' e
  exact ⟨hcfg, hpending, hlen, ⟨e, rfl⟩, hothers, c', State.setContext_context?_self (State.context?_lt hc),
    fun a => by rw [hbuf], hregs⟩

/-- A data case clears the flag, delivers nothing and writes its buffer at `position` only. -/
theorem RxEffect.of_data {cfg : Config} {ctx : Nat} {i : Instr} {b : Octet} {c c' : Context} {f : Option (List Octet)}
    {st : RxStatus} (h : RxEffect cfg ctx i c c' f st) (hi : i = .rxData ctx b ∨ i = .rxDataEsc ctx b) :
    f = none ∧ c'.escapeActive = false ∧ ∃ v, c'.buffer = Memory.write c.buffer c.position v := by
  cases h with
  | flag | flagEsc | esc => simp at hi
  | dataEsc _ _ hs =>
    obtain ⟨-, hesc, hbuf, -⟩ := storeData_eq_ok hs
    exact ⟨rfl, hesc, _, hbuf⟩
  | data he _ _ hs =>
    obtain ⟨-, hesc, hbuf, -⟩ := storeData_eq_ok hs
    exact ⟨rfl, hesc.trans he, _, hbuf⟩

/-- Settles O41: `RxEffect.of_data`, read at the other indices. -/
theorem storingRowsKeepTheRest : Obligations.StoringRowsKeepTheRest := by
  intro i ctx b s t c hi hc h
  have hp : i.port = .rxOctet ctx := by rcases hi with rfl | rfl <;> rfl
  obtain ⟨c', f, st, he, rfl⟩ := exec_rx_next hp hc h
  obtain ⟨rfl, hesc, v, hbuf⟩ := he.of_data hi
  obtain ⟨hcfg, hpending, hlen, hothers⟩ := setContext_log_keeps s ctx c' (.rx ctx none st)
  refine ⟨hcfg, hpending, hlen, ⟨st, rfl⟩, hothers, c', State.setContext_context?_self (State.context?_lt hc), hesc,
    fun a ha => ?_⟩
  rw [hbuf, Memory.read_write, if_neg (Ne.symm ha)]

/-- The flag stands after a case exactly if the case was `RX.ESC`, which runs only where it did not stand before. -/
theorem RxEffect.escapeActive_iff {cfg : Config} {ctx : Nat} {i : Instr} {c c' : Context} {f : Option (List Octet)}
    {st : RxStatus} (h : RxEffect cfg ctx i c c' f st) :
    (c'.escapeActive = true ↔ i = .rxEsc ctx) ∧ (i = .rxEsc ctx → c.escapeActive = false) := by
  cases h with
  | flag | flagEsc => simp
  | esc he => simp [he]
  | dataEsc _ _ hs =>
    obtain ⟨-, hesc, -⟩ := storeData_eq_ok hs
    simp [hesc]
  | data he _ _ hs =>
    obtain ⟨-, hesc, -⟩ := storeData_eq_ok hs
    simp [hesc, he]

/-- Settles O48: `RxEffect.escapeActive_iff`. -/
theorem escapeFlagIsSetByEscOnly : Obligations.EscapeFlagIsSetByEscOnly := by
  intro i s t ctx c c' hp hc h hc'
  obtain ⟨f, st, he⟩ := exec_rxEffect_of_port hp hc h hc'
  obtain ⟨hiff, hbefore⟩ := he.escapeActive_iff
  refine ⟨hiff, fun hesc => Bool.eq_false_iff.mpr fun hesc' => ?_⟩
  rw [hbefore (hiff.mp hesc')] at hesc
  cases hesc

/-! ## Octets at or above `position` (20_memory.md section 5) -/

section StaleOctets

variable {cfg : Config} {c : Context} {m : Memory}

/-- A read sees the octets below `position` only. -/
theorem memRead_congr (hm : ∀ k, k < c.position → Memory.read m k = Memory.read c.buffer k) (i : Nat) :
    memRead cfg { c with buffer := m } i = memRead cfg c i := by
  by_cases hi : c.position ≤ i
  · simp [memRead, hi]
  · simp [memRead, hi, hm i (by omega)]

theorem memReadPrefix_congr (hm : ∀ k, k < c.position → Memory.read m k = Memory.read c.buffer k) (n : Nat) :
    memReadPrefix cfg { c with buffer := m } n = memReadPrefix cfg c n := by
  induction n with
  | zero => rfl
  | succ n ih => simp only [memReadPrefix, ih, memRead_congr hm]

theorem boundary_congr (hm : ∀ k, k < c.position → Memory.read m k = Memory.read c.buffer k) :
    boundary cfg { c with buffer := m } = boundary cfg c := by
  simp only [boundary, memRead_congr hm, memReadPrefix_congr hm]

/-- A data case that answers read the octet two behind the cursor, if there is one. -/
theorem exists_read_of_storeData {v : Octet} {r : Context × RxStatus} (h : storeData cfg c v = .ok r) :
    ∃ x, 2 ≤ c.position → Memory.read c.buffer (c.position - 2) = some x := by
  unfold storeData at h
  split at h
  · cases h
  · rename_i c1 hw
    obtain ⟨-, rfl⟩ := memWrite_eq_ok.mp hw
    split at h
    · cases h
    · rename_i c2 hf
      rcases foldChecksum_eq_ok hf with ⟨hlt, -⟩ | ⟨-, x, hx, -⟩
      · exact ⟨0#8, fun h2 => absurd h2 (Nat.not_le.mpr hlt)⟩
      · refine ⟨x, fun h2 => ?_⟩
        have hread : Memory.read (Memory.write c.buffer c.position v) (c.position - 2) = some x :=
          have ⟨_, _, hread⟩ := memRead_eq_ok.mp hx
          hread
        rwa [Memory.read_write, if_neg (by omega)] at hread

/-- Everything a data case needed, and all of what it leaves: the converse of `storeData_of`. -/
theorem storeData_eq_ok_advance {v : Octet} {r : Context × RxStatus} (h : storeData cfg c v = .ok r) :
    c.position < cfg.maxFrameLength ∧ ∃ x, (2 ≤ c.position → Memory.read c.buffer (c.position - 2) = some x) ∧
      r = advance cfg { c with buffer := Memory.write c.buffer c.position v, checksum := foldedBy c x } := by
  obtain ⟨hlt, -⟩ := storeData_eq_ok (st := r.2) (c' := r.1) h
  obtain ⟨x, hx⟩ := exists_read_of_storeData h
  exact ⟨hlt, x, hx, Except.ok.inj (h.symm.trans (storeData_of hlt hx))⟩

/-- A data case leaves the same registers and reports the same from any buffer that agrees below `position`, and the
buffers agree below the new `position`. -/
theorem storeData_congr (hm : ∀ k, k < c.position → Memory.read m k = Memory.read c.buffer k) {c' : Context}
    {v : Octet} {st : RxStatus} (h : storeData cfg c v = .ok (c', st)) :
    ∃ m', storeData cfg { c with buffer := m } v = .ok ({ c' with buffer := m' }, st) ∧
      ∀ k, k < c'.position → Memory.read m' k = Memory.read c'.buffer k := by
  obtain ⟨hlt, x, hx, hr⟩ := storeData_eq_ok_advance h
  have hxm : 2 ≤ c.position → Memory.read m (c.position - 2) = some x := fun h2 => (hm _ (by omega)).trans (hx h2)
  refine ⟨Memory.write m c.position v, ?_, fun k hk => ?_⟩
  · rw [storeData_of (c := { c with buffer := m }) hlt hxm]
    rw [advance_eq] at hr ⊢
    split at hr
    case isTrue hfull => cases hr; rw [if_pos hfull]
    case isFalse hroom => cases hr; rw [if_neg hroom]; rfl
  · obtain ⟨-, -, hbuf, ⟨-, hp, -⟩ | ⟨-, hp, -⟩⟩ := storeData_eq_ok h
    · omega
    · rw [hbuf, Memory.read_write, Memory.read_write]
      split
      · rfl
      · exact hm k (by omega)

/-- A case of the receiver has the same effect from any buffer that agrees below `position`, and the buffers agree below
the new `position`. -/
theorem RxEffect.congr_buffer (hm : ∀ k, k < c.position → Memory.read m k = Memory.read c.buffer k) {ctx : Nat}
    {i : Instr} {c' : Context} {f : Option (List Octet)} {st : RxStatus} (h : RxEffect cfg ctx i c c' f st) :
    ∃ m', RxEffect cfg ctx i { c with buffer := m } { c' with buffer := m' } f st ∧
      ∀ k, k < c'.position → Memory.read m' k = Memory.read c'.buffer k := by
  cases h with
  | flag he hb =>
    exact ⟨m, .flag he ((boundary_congr hm).trans hb), fun k hk => absurd hk (Nat.not_lt_zero k)⟩
  | flagEsc he =>
    have heffect := RxEffect.flagEsc (cfg := cfg) (ctx := ctx) (c := { c with buffer := m }) he
    cases hpol : cfg.escFlagPolicy with
    | cancelOnly => rw [hpol] at heffect; exact ⟨m, heffect, hm⟩
    | abortReset => rw [hpol] at heffect; exact ⟨m, heffect, fun k hk => absurd hk (Nat.not_lt_zero k)⟩
  | esc he => exact ⟨m, .esc he, hm⟩
  | dataEsc he hflag hs =>
    obtain ⟨m', hs', hm'⟩ := storeData_congr (c := c.clearEscape) hm hs
    exact ⟨m', .dataEsc he hflag hs', hm'⟩
  | data he hflag hesc hs =>
    obtain ⟨m', hs', hm'⟩ := storeData_congr hm hs
    exact ⟨m', .data he hflag hesc hs', hm'⟩

end StaleOctets

/-- Settles O44: `RxEffect.congr_buffer` at the state with the other buffer. -/
theorem staleOctetsReachNoOutput : Obligations.StaleOctetsReachNoOutput := by
  intro i ctx s t c m hp hc hm h
  obtain ⟨c', f, st, he, rfl⟩ := exec_rx_next hp hc h
  obtain ⟨m', he', hm'⟩ := he.congr_buffer hm
  have hlt := State.context?_lt hc
  have hlt' : ctx < (s.setContext ctx { c with buffer := m }).contexts.length := by simpa using hlt
  have hexec := exec_of_rxEffect (s := s.setContext ctx { c with buffer := m }) (State.setContext_context?_self hlt) he'
  exact ⟨_, c', _, hexec, rfl, State.setContext_context?_self hlt, State.setContext_context?_self hlt', rfl, rfl, rfl,
    hm'⟩

end Sys2Proof.Machine

/-! What one octet leaves held and reports (10_state.md section 5, 60_exceptions.md section 1), what is delivered
(42_receiver.md section 8), and the feeding of a stream of octets: any frame the encoder emits is delivered at its last
octet, whatever the context held (42_receiver.md section 9). -/

namespace Sys2Proof.Machine

/-! ## What one octet leaves held and reports -/

/-- The octets held after an octet `b` at a context that holds `xs` (10_state.md section 5). -/
def heldAfter (cfg : Config) (escapeActive : Bool) (xs : List Octet) (b : Octet) : List Octet :=
  if b = 0x7E#8 then (if escapeActive = true ∧ cfg.escFlagPolicy = .cancelOnly then xs else [])
  else if b = 0x7D#8 ∧ escapeActive = false then xs
  else if xs.length + 1 = cfg.maxFrameLength then []
  else xs ++ [if escapeActive = true then b ^^^ 0x20#8 else b]

/-- A data octet is appended, or drops all when it fills the buffer. -/
theorem heldAfter_of_data {cfg : Config} {e : Bool} {xs : List Octet} {b : Octet} (hflag : b ≠ 0x7E#8)
    (hesc : ¬(b = 0x7D#8 ∧ e = false)) :
    heldAfter cfg e xs b =
      if xs.length + 1 = cfg.maxFrameLength then [] else xs ++ [if e = true then b ^^^ 0x20#8 else b] := by
  rw [heldAfter, if_neg hflag, if_neg hesc]

/-- A data case appends its octet, or drops all when it fills the buffer; the status says which. -/
theorem storeData_holds {cfg : Config} {c c' : Context} {xs : List Octet} {v : Octet} {st : RxStatus}
    (hc : c.Holds xs) (h : storeData cfg c v = .ok (c', st)) :
    c'.Holds (if xs.length + 1 = cfg.maxFrameLength then [] else xs ++ [v]) ∧
      st = if c.position + 1 = cfg.maxFrameLength then .frameTooLarge else .none := by
  obtain ⟨-, -, hbuf, ⟨hfull, hp, -, hst⟩ | ⟨hroom, hp, hst, -⟩⟩ := storeData_eq_ok h
  · rw [if_pos (hc.1 ▸ hfull), if_pos hfull]
    exact ⟨Context.holds_nil hp, hst⟩
  · rw [if_neg (hc.1 ▸ hroom), if_neg hroom]
    exact ⟨hc.append hp hbuf, hst⟩

/-- The octet a receiver's row was selected by decides what its effect leaves held. -/
theorem RxEffect.holds_heldAfter {cfg : Config} {ctx : Nat} {c c' : Context} {xs : List Octet} {b : Octet}
    {f : Option (List Octet)} {st : RxStatus} (hc : c.Holds xs)
    (h : RxEffect cfg ctx (rxRow ctx c.escapeActive b) c c' f st) :
    c'.Holds (heldAfter cfg c.escapeActive xs b) := by
  rcases rxRow_cases ctx c.escapeActive b with ⟨rfl, he, hrow⟩ | ⟨rfl, he, hrow⟩ | ⟨rfl, he, hrow⟩ | ⟨hflag, he, hrow⟩ |
    ⟨hflag, hesc, he, hrow⟩
  all_goals
    rw [hrow] at h
    rw [he]
    cases h
  case flag => exact Context.holds_nil rfl
  case flagEsc =>
    cases hpol : cfg.escFlagPolicy with
    | cancelOnly => rw [heldAfter, if_pos rfl, if_pos ⟨rfl, hpol⟩]; exact hc.congr rfl rfl
    | abortReset => rw [heldAfter, if_pos rfl, if_neg (by simp [hpol])]; exact Context.holds_nil rfl
  case esc => exact hc.congr rfl rfl
  case dataEsc hs =>
    rw [heldAfter_of_data hflag (by simp)]
    exact (storeData_holds (c := c.clearEscape) (hc.congr rfl rfl) hs).1
  case data hs =>
    rw [heldAfter_of_data hflag (by simp [hesc])]
    exact (storeData_holds hc hs).1

/-- Settles O50: `RxEffect.holds_heldAfter`. -/
theorem heldOctetsFollowTheStream : Obligations.HeldOctetsFollowTheStream := by
  intro s t ctx c c' xs b hc hholds h hc'
  obtain ⟨f, st, he⟩ := exec_rxEffect_of_port (rxRow_port ctx c.escapeActive b) hc h hc'
  exact he.holds_heldAfter hholds

/-- An octet that can be read is the one held at that index. -/
theorem Context.Holds.getD_of_memRead {cfg : Config} {c : Context} {xs : List Octet} {k : Nat} {v : Octet}
    (hc : c.Holds xs) (h : memRead cfg c k = .ok v) : xs.getD k 0#8 = v := by
  obtain ⟨-, hk, hread⟩ := memRead_eq_ok.mp h
  rw [List.getD_eq_getElem?_getD, ← hc.2 k (hc.1 ▸ hk), hread]
  rfl

/-- The status of a boundary that is not escaped, by the octets held (60_exceptions.md R124). -/
theorem boundary_status {cfg : Config} {c : Context} {xs : List Octet} {f : Option (List Octet)} {st : RxStatus}
    (hc : c.Holds xs) (he : c.escapeActive = false) (h : boundary cfg c = .ok (f, st)) :
    st = rxStatusTable cfg c xs 0x7E#8 := by
  have htable : rxStatusTable cfg c xs 0x7E#8 =
      if c.position = 0 then .none else if c.position = 1 then .runt
      else if c.checksum = fcsOf (xs.getD (xs.length - 2) 0#8) (xs.getD (xs.length - 1) 0#8) then .frameOk
      else .checksumMismatch := by
    simp [rxStatusTable, he, fcsOf_eq_or]
  rw [htable]
  rcases boundary_eq_ok h with ⟨h0, -, rfl⟩ | ⟨h1, -, rfl⟩ | ⟨h2, lo, hi, hlo, hhi, hsum⟩
  · rw [if_pos h0]
  · rw [if_neg (by omega), if_pos h1]
  · rw [if_neg (by omega), if_neg (by omega), ← hc.1, hc.getD_of_memRead hlo, hc.getD_of_memRead hhi]
    rcases hsum with ⟨heq, rfl, -⟩ | ⟨hne, -, rfl⟩
    · rw [if_pos heq]
    · rw [if_neg hne]

/-- The octet a receiver's row was selected by decides the status reported. -/
theorem RxEffect.status_eq_table {cfg : Config} {ctx : Nat} {c c' : Context} {xs : List Octet} {b : Octet}
    {f : Option (List Octet)} {st : RxStatus} (hc : c.Holds xs)
    (h : RxEffect cfg ctx (rxRow ctx c.escapeActive b) c c' f st) : st = rxStatusTable cfg c xs b := by
  rcases rxRow_cases ctx c.escapeActive b with ⟨rfl, he, hrow⟩ | ⟨rfl, he, hrow⟩ | ⟨rfl, he, hrow⟩ | ⟨hflag, he, hrow⟩ |
    ⟨hflag, hesc, he, hrow⟩
  all_goals
    rw [hrow] at h
    cases h
  case flag hb => exact boundary_status hc he hb
  case flagEsc => simp [rxStatusTable, he]
  case esc => simp [rxStatusTable, he]
  case dataEsc hs =>
    rw [rxStatusTable, if_neg hflag, if_neg (by simp [he])]
    exact (storeData_holds (c := c.clearEscape) (hc.congr rfl rfl) hs).2
  case data hs =>
    rw [rxStatusTable, if_neg hflag, if_neg (by simp [hesc])]
    exact (storeData_holds hc hs).2

/-- Settles O47: `RxEffect.status_eq_table`. -/
theorem rxStatusFollowsTable : Obligations.RxStatusFollowsTable := by
  intro s t ctx c xs b hc hholds h
  obtain ⟨c', f, st, he, rfl⟩ := exec_rx_next (rxRow_port ctx c.escapeActive b) hc h
  exact ⟨f, by rw [he.status_eq_table hholds]; rfl⟩

/-! ## What a boundary delivers (42_receiver.md section 8) -/

@[simp] theorem length_fcsOctets (p : List Octet) : (fcsOctets p).length = 2 := rfl

/-- The FCS octets of a payload, low first, are read as its checksum (30_encoding.md R55). -/
theorem fcsOf_eq_iff {lo hi : Octet} {v : Word} : v = fcsOf lo hi ↔ [lo, hi] = [lowOctet v, highOctet v] := by
  constructor
  · rintro rfl
    simp [fcsOf]
  · intro h
    simp at h
    rw [h.1, h.2, fcsOf, joinOctets_octets]

/-- A sound context that holds at least two octets delivers the octets before them exactly if they are their FCS. -/
theorem Context.Inv.boundary_eq {cfg : Config} {c : Context} {p : List Octet} {lo hi : Octet} (h : c.Inv cfg)
    (hc : c.Holds (p ++ [lo, hi])) :
    boundary cfg c = .ok (if [lo, hi] = fcsOctets p then (some p, .frameOk) else (none, .checksumMismatch)) := by
  obtain ⟨xs, hholds, hsum⟩ := h.checksumTrails
  obtain rfl := hholds.unique hc
  have hfit : p.length + 2 ≤ cfg.maxFrameLength := by
    have hpos : c.position = p.length + 2 := by simpa using hc.1
    have hinside := h.positionInside
    omega
  have hcrc : c.checksum = crc16 p := by simpa using hsum
  rw [boundary_of_holds hc hfit, hcrc]
  simp only [fcsOf_eq_iff]
  rfl

/-- A sound context that holds a payload and its FCS delivers the payload. -/
theorem Context.Inv.boundary_of_fcs {cfg : Config} {c : Context} {p : List Octet} (h : c.Inv cfg)
    (hc : c.Holds (p ++ fcsOctets p)) : boundary cfg c = .ok (some p, .frameOk) :=
  (h.boundary_eq hc).trans (congrArg Except.ok (if_pos rfl))

/-- What a sound context delivers is what it holds, less its FCS. -/
theorem Context.Inv.holds_of_delivered {cfg : Config} {c : Context} {p : List Octet} {st : RxStatus} (h : c.Inv cfg)
    (hb : boundary cfg c = .ok (some p, st)) : st = .frameOk ∧ c.Holds (p ++ fcsOctets p) := by
  rcases h.holds_cases with hlt | ⟨q, lo, hi, hholds, -⟩
  · rw [boundary_of_lt_two hlt] at hb
    cases hb
  · rw [h.boundary_eq hholds] at hb
    split at hb
    case isTrue hfcs => cases hb; exact ⟨rfl, hfcs ▸ hholds⟩
    case isFalse => cases hb

/-- Settles O46: an effect that delivers is a boundary's, and `Context.Inv.boundary_eq` says what it delivers. -/
theorem deliveredPayloadIsCheckedAndBounded : Obligations.DeliveredPayloadIsCheckedAndBounded := by
  intro i s t ctx p st hs h hevents
  rcases exec_next h with ⟨e, he, rfl⟩ | ⟨k, c, -, -, -, rfl⟩ | ⟨k, c, c', f, st', hc, he, rfl⟩
  · obtain rfl : e = .rx ctx (some p) st := by simpa using hevents
    cases he
  · simp at hevents
  · obtain ⟨rfl, rfl, rfl⟩ : k = ctx ∧ f = some p ∧ st' = st := by simpa using hevents
    have hinv := hs.contextsSound k c hc
    obtain ⟨hi, hb⟩ := he.eq_rxFlag_of_frameOut
    obtain ⟨hst, hheld⟩ := hinv.holds_of_delivered hb
    have hpos : c.position = p.length + 2 := by simpa using hheld.1
    have hinside := hinv.positionInside
    exact ⟨hi, hst, by omega, c, hc, hheld⟩

/-! ## Feeding octets -/

/-- Feeding the octets `bs` to context `ctx` takes `s` to `t`, puts out `es`, one entry an octet, and touches no other
context. -/
structure Feeds (ctx : Nat) (bs : List Octet) (es : List Event) (s t : State) : Prop where
  run : runSteps bs.length s = .next t
  count : es.length = bs.length
  events : t.events = s.events ++ es
  cfg : t.cfg = s.cfg
  others : ∀ k, k ≠ ctx → t.contexts[k]? = s.contexts[k]?

theorem runSteps_succ {s t : State} (h : step s = .next t) (n : Nat) : runSteps (n + 1) s = runSteps n t := by
  simp only [runSteps, h]

theorem runSteps_add {m : Nat} {s t : State} (h : runSteps m s = .next t) (n : Nat) :
    runSteps (m + n) s = runSteps n t := by
  induction m generalizing s with
  | zero => cases h; rw [Nat.zero_add]
  | succ m ih =>
    unfold runSteps at h
    split at h
    case h_1 hstep => rw [Nat.succ_add, runSteps_succ hstep, ih h]
    case h_2 => cases h
    case h_3 => cases h

theorem Feeds.refl (ctx : Nat) (s : State) : Feeds ctx [] [] s s := ⟨rfl, rfl, by simp, rfl, fun _ _ => rfl⟩

theorem Feeds.trans {ctx : Nat} {bs bs' : List Octet} {es es' : List Event} {s t u : State}
    (h : Feeds ctx bs es s t) (h' : Feeds ctx bs' es' t u) : Feeds ctx (bs ++ bs') (es ++ es') s u where
  run := by rw [List.length_append, runSteps_add h.run, h'.run]
  count := by rw [List.length_append, List.length_append, h.count, h'.count]
  events := by rw [h'.events, h.events, List.append_assoc]
  cfg := h'.cfg.trans h.cfg
  others k hk := (h'.others k hk).trans (h.others k hk)

/-- The row R97's tests select is the one an octet decodes to. -/
theorem rxRow_eq_decodeRx (ctx : Nat) (e : Bool) (b : Octet) : rxRow ctx e b = decodeRx ctx e b := by
  rw [decodeRx_eq, rxRow]
  by_cases hflag : b = 0x7E#8 <;> simp [hflag]

/-- The step that takes the first of the octets presented to a constructed context. -/
theorem step_octet {s : State} {ctx : Nat} {c : Context} {b : Octet} {bs : List Octet}
    (hp : s.pending = octetCalls ctx (b :: bs)) (hc : s.context? ctx = some c) :
    step s = exec (rxRow ctx c.escapeActive b) { s with pending := octetCalls ctx bs } := by
  rw [rxRow_eq_decodeRx, ← escapeSeen_rxOctet hc]
  exact step_of_decoded hp (conflict_of_serialised rfl s) rfl

/-- One octet presented to a sound, constructed context is one step, with the effect of the row it selects. -/
theorem exists_feeds_octet {s : State} {ctx : Nat} {c : Context} {b : Octet} {bs : List Octet} (hs : s.Inv)
    (hp : s.pending = octetCalls ctx (b :: bs)) (hc : s.context? ctx = some c) :
    ∃ t c' f st, Feeds ctx [b] [.rx ctx f st] s t ∧ RxEffect s.cfg ctx (rxRow ctx c.escapeActive b) c c' f st ∧
      t.Inv ∧ t.pending = octetCalls ctx bs ∧ t.context? ctx = some c' := by
  obtain ⟨c', f, st, he⟩ := (hs.contextsSound ctx c hc).exists_rxEffect ctx b
  have hexec := exec_of_rxEffect (s := { s with pending := octetCalls ctx bs }) hc he
  have hstep : step s = .next _ := (step_octet hp hc).trans hexec
  obtain ⟨hcfg, hpending, -, hothers⟩ :=
    setContext_log_keeps { s with pending := octetCalls ctx bs } ctx c' (.rx ctx f st)
  exact ⟨_, c', f, st, ⟨runSteps_succ hstep 0, rfl, rfl, hcfg, hothers⟩, he,
    exec_keeps_inv (hs.withPending _) hexec, hpending, State.setContext_context?_self (State.context?_lt hc)⟩

/-- A sound state in which the octets `bs` are presented to context `ctx`, which is not escaping and holds `xs`. -/
structure Receiving (s : State) (ctx : Nat) (bs xs : List Octet) : Prop where
  sound : s.Inv
  pending : s.pending = octetCalls ctx bs
  holds : ∃ c, s.context? ctx = some c ∧ c.escapeActive = false ∧ c.Holds xs

/-- A context that holds nothing and is not escaping is in its reset state, by the invariant. -/
theorem Receiving.isReset {s : State} {ctx : Nat} {bs : List Octet} (h : Receiving s ctx bs []) :
    ∃ c, s.context? ctx = some c ∧ c.IsReset := by
  obtain ⟨hs, -, c, hc, he, hholds⟩ := h
  obtain ⟨xs, hxs, hsum⟩ := (hs.contextsSound ctx c hc).checksumTrails
  obtain rfl := hxs.unique hholds
  exact ⟨c, hc, he, hholds.1, hsum⟩

/-- A boundary empties the context; it delivers nothing of fewer than two octets, and the payload of octets that end
with its FCS. -/
theorem Receiving.feed_flag {s : State} {ctx : Nat} {bs xs : List Octet} (h : Receiving s ctx (0x7E#8 :: bs) xs) :
    ∃ t f st, Feeds ctx [0x7E#8] [.rx ctx f st] s t ∧ Receiving t ctx bs [] ∧ (xs.length < 2 → f = none) ∧
      ∀ p, xs = p ++ fcsOctets p → f = some p ∧ st = .frameOk := by
  obtain ⟨hs, hp, c, hc, he, hholds⟩ := h
  obtain ⟨t, c', f, st, hfeeds, heffect, ht, htp, htc⟩ := exists_feeds_octet hs hp hc
  have hrow : rxRow ctx c.escapeActive 0x7E#8 = .rxFlag ctx := by rw [he]; rfl
  rw [hrow] at heffect
  cases heffect with
  | flag _ hb =>
    refine ⟨t, f, st, hfeeds, ⟨ht, htp, c.reinit, htc, rfl, Context.holds_nil rfl⟩, fun hlt => ?_, ?_⟩
    · rw [boundary_of_lt_two (hholds.1 ▸ hlt)] at hb
      cases hb
      rfl
    · rintro p rfl
      rw [(hs.contextsSound ctx c hc).boundary_of_fcs hholds] at hb
      cases hb
      exact ⟨rfl, rfl⟩

/-- Nothing in `es` is a `frame_out`. -/
def Quiet (es : List Event) : Prop := ∀ e ∈ es, frameOutOf e = none

/-- An unescaped octet that is not reserved is appended (42_receiver.md R105). -/
theorem Receiving.feed_data {s : State} {ctx : Nat} {b : Octet} {bs xs : List Octet}
    (h : Receiving s ctx (b :: bs) xs) (hflag : b ≠ 0x7E#8) (hesc : b ≠ 0x7D#8)
    (hroom : xs.length + 1 < s.cfg.maxFrameLength) :
    ∃ t es, Feeds ctx [b] es s t ∧ Quiet es ∧ Receiving t ctx bs (xs ++ [b]) := by
  obtain ⟨hs, hp, c, hc, he, hholds⟩ := h
  obtain ⟨t, c', f, st, hfeeds, heffect, ht, htp, htc⟩ := exists_feeds_octet hs hp hc
  have hheld := heffect.holds_heldAfter hholds
  rw [he, heldAfter_of_data hflag (by simp [hesc]), if_neg (Nat.ne_of_lt hroom)] at hheld
  have hrow : rxRow ctx c.escapeActive b = .rxData ctx b := by simp [rxRow, he, hflag, hesc]
  rw [hrow] at heffect
  obtain ⟨rfl, he', -⟩ := heffect.of_data (.inl rfl)
  exact ⟨t, _, hfeeds, by simp [Quiet, frameOutOf], ht, htp, c', htc, he', hheld⟩

/-- After an escape octet any octet but the boundary is appended inverted (30_encoding.md section 5). -/
theorem Receiving.feed_escaped {s : State} {ctx : Nat} {x : Octet} {bs xs : List Octet}
    (h : Receiving s ctx (0x7D#8 :: x :: bs) xs) (hflag : x ≠ 0x7E#8)
    (hroom : xs.length + 1 < s.cfg.maxFrameLength) :
    ∃ t es, Feeds ctx [0x7D#8, x] es s t ∧ Quiet es ∧ Receiving t ctx bs (xs ++ [x ^^^ 0x20#8]) := by
  obtain ⟨hs, hp, c, hc, he, hholds⟩ := h
  obtain ⟨u, d, f, st, hfeeds, heffect, hu, hup, hud⟩ := exists_feeds_octet hs hp hc
  have hrow : rxRow ctx c.escapeActive 0x7D#8 = .rxEsc ctx := by rw [he]; rfl
  rw [hrow] at heffect
  cases heffect
  obtain ⟨t, c', f, st, hfeeds', heffect, ht, htp, htc⟩ := exists_feeds_octet hu hup hud
  have hholds' : c.setEscape.Holds xs := hholds.congr rfl rfl
  have hheld := heffect.holds_heldAfter hholds'
  rw [hfeeds.cfg, heldAfter_of_data hflag (by simp), if_neg (Nat.ne_of_lt hroom)] at hheld
  have hrow' : rxRow ctx c.setEscape.escapeActive x = .rxDataEsc ctx x := by simp [rxRow, hflag]
  rw [hrow'] at heffect
  obtain ⟨rfl, he', -⟩ := heffect.of_data (.inr rfl)
  exact ⟨t, _, hfeeds.trans hfeeds', by simp [Quiet, frameOutOf], ht, htp, c', htc, he', hheld⟩

/-- The wire form of an octet is received as that octet. -/
theorem Receiving.feed_wireForm {s : State} {ctx : Nat} {b : Octet} {bs xs : List Octet}
    (h : Receiving s ctx (wireForm b ++ bs) xs) (hroom : xs.length + 1 < s.cfg.maxFrameLength) :
    ∃ t es, Feeds ctx (wireForm b) es s t ∧ Quiet es ∧ Receiving t ctx bs (xs ++ [b]) := by
  by_cases hres : b = 0x7D#8 ∨ b = 0x7E#8
  · have hflag : b ^^^ 0x20#8 ≠ 0x7E#8 := by rcases hres with rfl | rfl <;> decide
    have hinv : b ^^^ 0x20#8 ^^^ 0x20#8 = b := by rw [BitVec.xor_assoc, BitVec.xor_self, BitVec.xor_zero]
    rw [wireForm_of_reserved hres] at h ⊢
    have hfed := h.feed_escaped hflag hroom
    rwa [hinv] at hfed
  · obtain ⟨hesc, hflag⟩ := not_or.mp hres
    rw [wireForm_of_ordinary hesc hflag] at h ⊢
    exact h.feed_data hflag hesc hroom

/-- A stuffed sequence is received as that sequence, while there is room. -/
theorem Receiving.feed_stuffed {s : State} {ctx : Nat} {ys bs xs : List Octet}
    (h : Receiving s ctx (ys.flatMap wireForm ++ bs) xs) (hroom : xs.length + ys.length < s.cfg.maxFrameLength) :
    ∃ t es, Feeds ctx (ys.flatMap wireForm) es s t ∧ Quiet es ∧ Receiving t ctx bs (xs ++ ys) := by
  induction ys generalizing s xs with
  | nil => exact ⟨s, [], .refl ctx s, List.forall_mem_nil _, by simpa using h⟩
  | cons y ys ih =>
    rw [List.length_cons] at hroom
    rw [List.flatMap_cons, List.append_assoc] at h
    obtain ⟨u, es, hfeeds, hquiet, hu⟩ := h.feed_wireForm (by omega)
    have hroom' : (xs ++ [y]).length + ys.length < u.cfg.maxFrameLength := by
      rw [hfeeds.cfg, List.length_append, List.length_singleton]
      omega
    obtain ⟨t, es', hfeeds', hquiet', ht⟩ := ih hu hroom'
    refine ⟨t, es ++ es', hfeeds.trans hfeeds', ?_, by simpa using ht⟩
    exact List.forall_mem_append.mpr ⟨hquiet, hquiet'⟩

/-- A frame, fed to a context that is not escaping, whatever it holds, is delivered at its last octet; only its first
octet may deliver what was held before, and it does not if that was fewer than two octets. -/
theorem Receiving.feed_frame {s : State} {ctx : Nat} {p xs : List Octet} (h : Receiving s ctx (wireFrame p) xs)
    (hfit : p.length + 3 ≤ s.cfg.maxFrameLength) :
    ∃ t f st es, Feeds ctx (wireFrame p) ([.rx ctx f st] ++ es ++ [.rx ctx (some p) .frameOk]) s t ∧ Quiet es ∧
      (xs.length < 2 → f = none) ∧ Receiving t ctx [] [] := by
  rw [wireFrame_eq] at h ⊢
  obtain ⟨u, f, st, hopen, hu, hfirst, -⟩ := h.feed_flag
  have hroom : ([] : List Octet).length + (p ++ fcsOctets p).length < u.cfg.maxFrameLength := by
    rw [hopen.cfg]
    simp
    omega
  obtain ⟨v, es, hbody, hquiet, hv⟩ := hu.feed_stuffed hroom
  obtain ⟨t, f', st', hclose, ht, -, hdelivers⟩ := hv.feed_flag
  obtain ⟨rfl, rfl⟩ := hdelivers p rfl
  exact ⟨t, f, st, es, (hopen.trans hbody).trans hclose, hquiet, hfirst, ht⟩

/-- A sound state with octets presented to a context that is not escaping. -/
theorem receiving_of_inv {s : State} {ctx : Nat} {c : Context} (hs : s.Inv) (hc : s.context? ctx = some c)
    (he : c.escapeActive = false) (bs : List Octet) :
    ∃ xs, c.position = xs.length ∧ Receiving { s with pending := octetCalls ctx bs } ctx bs xs := by
  obtain ⟨xs, hholds, -⟩ := (hs.contextsSound ctx c hc).checksumTrails
  exact ⟨xs, hholds.1, hs.withPending _, rfl, c, hc, he, hholds⟩

/-- Settles O57: `Receiving.feed_frame` at a context that holds nothing, so that the first octet delivers nothing. -/
theorem framesRoundTrip : Obligations.FramesRoundTrip := by
  intro tx s sink ctx c p octets hemits hs hc hreset hfit
  obtain rfl := hemits.octets_eq
  obtain ⟨he, hpos, -⟩ := hreset
  obtain ⟨xs, hlen, hrecv⟩ := receiving_of_inv hs hc he (wireFrame p)
  obtain ⟨t, f, st, es, hfeeds, hquiet, hfirst, ht⟩ := hrecv.feed_frame hfit
  obtain rfl := hfirst (by omega)
  obtain ⟨c', hc', hreset'⟩ := ht.isReset
  have hcount := hfeeds.count
  rw [List.length_append] at hcount
  refine ⟨t, [.rx ctx none st] ++ es, c', hfeeds.run, ?_, ?_, hcount, ht.pending, hc', hreset', hfeeds.others⟩
  · rw [hfeeds.events, ← List.append_assoc]
  · exact List.forall_mem_append.mpr ⟨by simp [frameOutOf], hquiet⟩

/-- Settles O58: `Receiving.feed_frame` at whatever the context holds. -/
theorem nextFrameIsDeliveredAfterGarbage : Obligations.NextFrameIsDeliveredAfterGarbage := by
  intro tx s sink ctx c p octets hemits hs hc he hfit
  obtain rfl := hemits.octets_eq
  obtain ⟨xs, -, hrecv⟩ := receiving_of_inv hs hc he (wireFrame p)
  obtain ⟨t, f, st, es, hfeeds, -, -, ht⟩ := hrecv.feed_frame hfit
  obtain ⟨c', hc', hreset'⟩ := ht.isReset
  have hcount := hfeeds.count
  rw [List.length_append] at hcount
  refine ⟨t, [.rx ctx f st] ++ es, c', hfeeds.run, ?_, hcount, hc', hreset'⟩
  rw [hfeeds.events, ← List.append_assoc]

/-- Settles O38: `Receiving.feed_escaped`, read at the last octet held. -/
theorem anyEscapedOctetIsStored : Obligations.AnyEscapedOctetIsStored := by
  intro s ctx c x hs hc he hflag hroom
  obtain ⟨xs, hlen, hrecv⟩ := receiving_of_inv hs hc he [0x7D#8, x]
  obtain ⟨t, es, hfeeds, -, ht⟩ := hrecv.feed_escaped hflag (hlen ▸ hroom)
  obtain ⟨-, -, c', hc', he', hpos, hread⟩ := ht
  refine ⟨t, c', hfeeds.run, hc', he', by simpa [hlen] using hpos, ?_⟩
  rw [hlen, hread _ (by simp)]
  simp

end Sys2Proof.Machine
